-- ==== Sys2Proof/Word.lean ====
section
/-! DEFINITION. The unit's word types and fixed constants (00_scope.md R5, R6, R7; 10_state.md R14). -/

namespace Sys2Proof

/-- A Word256: the contents of one operand register, `0 <= u < 2^256` (R7, R14). -/
abbrev Word := BitVec 256

/-- A byte of a limb or of an instruction word (R25, R26). -/
abbrev Byte := BitVec 8

/-- An instruction word (30_encoding.md R36). -/
abbrev InstrWord := BitVec 32

/-- An operand register number: `x0` to `x15` (R14, R37). -/
abbrev Reg := Fin 16

/-- The bound of a Word256 (R7). -/
abbrev wordBound : Nat := 2 ^ 256

/-- The scale factor `S = 2^112` of the fixed-point formats (R5). -/
abbrev scale : Nat := 2 ^ 112

end Sys2Proof
end

