-- ==== Sys2Proof/Syntax.lean ====
section
/-! DEFINITION. The instruction set: one constructor per row of spec/opcode_table.json (30_encoding.md R42). The fields are
the register numbers of R37, destinations first. -/

namespace Sys2Proof

/-- The unit's 23 instructions (R42). The unit has no immediates (R39) and no other class of instruction (R47). -/
inductive Instr where
  /-- `ADD xd, xa, xb`: checked add (R51). -/
  | add (rd rs1 rs2 : Reg)
  /-- `SUB xd, xa, xb`: checked subtract (R52). -/
  | sub (rd rs1 rs2 : Reg)
  /-- `MUL xd, xa, xb`: checked multiply (R53). -/
  | mul (rd rs1 rs2 : Reg)
  /-- `MULW xlo, xhi, xa, xb`: 512-bit product; `rd` is the low half, `rd2` the high one (R54). -/
  | mulw (rd rd2 rs1 rs2 : Reg)
  /-- `SHL xd, xa, xn`: raw shift left (R55). -/
  | shl (rd rs1 rs2 : Reg)
  /-- `SHR xd, xa, xn`: raw shift right (R56). -/
  | shr (rd rs1 rs2 : Reg)
  /-- `AND xd, xa, xm`: raw mask (R57). -/
  | and (rd rs1 rs2 : Reg)
  /-- `MSB xd, xa`: index of the most significant set bit (R61). -/
  | msb (rd rs1 : Reg)
  /-- `LSB xd, xa`: index of the least significant set bit (R62). -/
  | lsb (rd rs1 : Reg)
  /-- `SQRT xd, xa`: integer square root (R65). -/
  | sqrt (rd rs1 : Reg)
  /-- `MULDIV xd, xa, xb, xden`: floor of `a*b/d` (R68). -/
  | muldiv (rd rs1 rs2 rs3 : Reg)
  /-- `MULDIVUP xd, xa, xb, xden`: `a*b/d` rounded up (R69). -/
  | muldivup (rd rs1 rs2 rs3 : Reg)
  /-- `ENCODE xd, xa`: integer to Q112.112 (R72). -/
  | encode (rd rs1 : Reg)
  /-- `ENCODE144 xd, xa`: integer to Q144.112 (R73). -/
  | encode144 (rd rs1 : Reg)
  /-- `DECODE xd, xq`: Q112.112 to integer (R74). -/
  | decode (rd rs1 : Reg)
  /-- `DECODE144 xd, xq`: Q144.112 to integer (R75). -/
  | decode144 (rd rs1 : Reg)
  /-- `FPMUL xd, xq, xy`: fixed-point times integer (R76). -/
  | fpmul (rd rs1 rs2 : Reg)
  /-- `MULI xd, xq, xy`: fixed-point times signed integer (R77). -/
  | muli (rd rs1 rs2 : Reg)
  /-- `MULUQ xd, xq1, xq2`: fixed-point times fixed-point (R78). -/
  | muluq (rd rs1 rs2 : Reg)
  /-- `DIVUQ xd, xq1, xq2`: fixed-point divided by fixed-point (R79). -/
  | divuq (rd rs1 rs2 : Reg)
  /-- `FRACTION xd, xn, xden`: fixed-point value of `n/d` (R81). -/
  | fraction (rd rs1 rs2 : Reg)
  /-- `RECIP xd, xq`: fixed-point reciprocal (R82). -/
  | recip (rd rs1 : Reg)
  /-- `FPSQRT xd, xq`: fixed-point square root (R83). -/
  | fpsqrt (rd rs1 : Reg)
  deriving DecidableEq, Repr

end Sys2Proof
end

