-- ==== Sys2Proof/WellFormed.lean ====
section
/-! DEFINITION. Which terms of `Instr` are instructions of the unit. Register numbers are in range by their type (20_memory.md
R28), so the one check is MULW's (30_encoding.md R43). -/

namespace Sys2Proof

/-- An instruction the unit has: MULW's two destinations differ (R43, D19); every other operand choice is one (R37). -/
def Instr.wf : Instr → Bool
  | .add _ _ _ => true
  | .sub _ _ _ => true
  | .mul _ _ _ => true
  | .mulw rd rd2 _ _ => rd ≠ rd2
  | .shl _ _ _ => true
  | .shr _ _ _ => true
  | .and _ _ _ => true
  | .msb _ _ => true
  | .lsb _ _ => true
  | .sqrt _ _ => true
  | .muldiv _ _ _ _ => true
  | .muldivup _ _ _ _ => true
  | .encode _ _ => true
  | .encode144 _ _ => true
  | .decode _ _ => true
  | .decode144 _ _ => true
  | .fpmul _ _ _ => true
  | .muli _ _ _ => true
  | .muluq _ _ _ => true
  | .divuq _ _ _ => true
  | .fraction _ _ _ => true
  | .recip _ _ => true
  | .fpsqrt _ _ => true

end Sys2Proof
end

