-- ==== Sys2Proof/Decode.lean ====
section
/-! DEFINITION. From instruction words to instructions and back (30_encoding.md R36 to R44, 20_memory.md R26). The decoder
reads fields; `legal` is R43's mask formula over the opcode table; the encoder writes the fields of R37. -/

namespace Sys2Proof

/-- `w[lo+len-1 : lo]` as an unsigned integer (00_scope.md R6). -/
def field (w : InstrWord) (lo len : Nat) : Nat :=
  w.toNat / 2 ^ lo % 2 ^ len

/-- A 4-bit register field (R37): every value names a register. -/
def regField (w : InstrWord) (lo : Nat) : Reg :=
  Fin.ofNat 16 (field w lo 4)

/-- `opcode = w[7:0]` (R37). -/
def opcodeOf (w : InstrWord) : Byte :=
  BitVec.ofNat 8 (field w 0 8)

/-- Format R2: rd, rs1; bits 31:16 zero (R38). -/
def decodeR2 (mk : Reg → Reg → Instr) (w : InstrWord) : Option Instr :=
  if field w 16 16 = 0 then some (mk (regField w 8) (regField w 12)) else none

/-- Format R3: rd, rs1, rs2; bits 31:20 zero (R38). -/
def decodeR3 (mk : Reg → Reg → Reg → Instr) (w : InstrWord) : Option Instr :=
  if field w 20 12 = 0 then some (mk (regField w 8) (regField w 12) (regField w 16)) else none

/-- Format R4: rd, rs1, rs2, rs3; bits 31:24 zero (R38). -/
def decodeR4 (mk : Reg → Reg → Reg → Reg → Instr) (w : InstrWord) : Option Instr :=
  if field w 24 8 = 0 then
    some (mk (regField w 8) (regField w 12) (regField w 16) (regField w 20))
  else none

/-- Format RW: rd, rd2, rs1, rs2; bits 31:28 and 23:20 zero, and rd differs from rd2 (R38, R43). -/
def decodeRW (mk : Reg → Reg → Reg → Reg → Instr) (w : InstrWord) : Option Instr :=
  if field w 28 4 = 0 ∧ field w 20 4 = 0 ∧ regField w 8 ≠ regField w 24 then
    some (mk (regField w 8) (regField w 24) (regField w 12) (regField w 16))
  else none

/-- The opcode map (R42): how the word of each opcode is read. An opcode it does not name is illegal (R44). -/
def decodeOpcode (op : Nat) (w : InstrWord) : Option Instr :=
  match op with
  | 0x01 => decodeR3 .add w
  | 0x02 => decodeR3 .sub w
  | 0x03 => decodeR3 .mul w
  | 0x04 => decodeRW .mulw w
  | 0x05 => decodeR3 .shl w
  | 0x06 => decodeR3 .shr w
  | 0x07 => decodeR3 .and w
  | 0x10 => decodeR2 .msb w
  | 0x11 => decodeR2 .lsb w
  | 0x18 => decodeR2 .sqrt w
  | 0x20 => decodeR4 .muldiv w
  | 0x21 => decodeR4 .muldivup w
  | 0x30 => decodeR2 .encode w
  | 0x31 => decodeR2 .encode144 w
  | 0x32 => decodeR2 .decode w
  | 0x33 => decodeR2 .decode144 w
  | 0x34 => decodeR3 .fpmul w
  | 0x35 => decodeR3 .muli w
  | 0x36 => decodeR3 .muluq w
  | 0x37 => decodeR3 .divuq w
  | 0x38 => decodeR3 .fraction w
  | 0x39 => decodeR2 .recip w
  | 0x3A => decodeR2 .fpsqrt w
  | _ => none

/-- The decoder (R42, R43): `none` is an illegal word. -/
def decodeWord (w : InstrWord) : Option Instr :=
  decodeOpcode (field w 0 8) w

/-- The four operand formats (R38). -/
inductive Format where
  | r2
  | r3
  | r4
  | rw
  deriving DecidableEq, Repr

/-- The mask of a format: the opcode and every must-be-zero bit (R38). -/
def Format.mask : Format → InstrWord
  | .r2 => 0xFFFF00FF#32
  | .r3 => 0xFFF000FF#32
  | .r4 => 0xFF0000FF#32
  | .rw => 0xF0F000FF#32

/-- The opcode map: each opcode with its format, in the order of R42. -/
def opcodeMap : List (Byte × Format) :=
  [(0x01#8, .r3), (0x02#8, .r3), (0x03#8, .r3), (0x04#8, .rw), (0x05#8, .r3), (0x06#8, .r3), (0x07#8, .r3),
   (0x10#8, .r2), (0x11#8, .r2), (0x18#8, .r2), (0x20#8, .r4), (0x21#8, .r4)] ++
  [(0x30#8, .r2), (0x31#8, .r2), (0x32#8, .r2), (0x33#8, .r2), (0x34#8, .r3), (0x35#8, .r3), (0x36#8, .r3),
   (0x37#8, .r3), (0x38#8, .r3), (0x39#8, .r2), (0x3A#8, .r2)]

/-- `legal(w)` as R43 writes it: the opcode is in the map, the masked word is the opcode, and MULW's rd and rd2
differ. -/
def legal (w : InstrWord) : Bool :=
  match opcodeMap.find? (fun row => row.1 = opcodeOf w) with
  | none => false
  | some row =>
    (w &&& row.2.mask) = (opcodeOf w).zeroExtend 32 && !(opcodeOf w = 0x04#8 && regField w 8 = regField w 24)

/-- An instruction's opcode (R42). -/
def Instr.opcode : Instr → Byte
  | .add _ _ _ => 0x01#8
  | .sub _ _ _ => 0x02#8
  | .mul _ _ _ => 0x03#8
  | .mulw _ _ _ _ => 0x04#8
  | .shl _ _ _ => 0x05#8
  | .shr _ _ _ => 0x06#8
  | .and _ _ _ => 0x07#8
  | .msb _ _ => 0x10#8
  | .lsb _ _ => 0x11#8
  | .sqrt _ _ => 0x18#8
  | .muldiv _ _ _ _ => 0x20#8
  | .muldivup _ _ _ _ => 0x21#8
  | .encode _ _ => 0x30#8
  | .encode144 _ _ => 0x31#8
  | .decode _ _ => 0x32#8
  | .decode144 _ _ => 0x33#8
  | .fpmul _ _ _ => 0x34#8
  | .muli _ _ _ => 0x35#8
  | .muluq _ _ _ => 0x36#8
  | .divuq _ _ _ => 0x37#8
  | .fraction _ _ _ => 0x38#8
  | .recip _ _ => 0x39#8
  | .fpsqrt _ _ => 0x3A#8

/-- An instruction's format (R42). -/
def Instr.format : Instr → Format
  | .add _ _ _ => .r3
  | .sub _ _ _ => .r3
  | .mul _ _ _ => .r3
  | .mulw _ _ _ _ => .rw
  | .shl _ _ _ => .r3
  | .shr _ _ _ => .r3
  | .and _ _ _ => .r3
  | .msb _ _ => .r2
  | .lsb _ _ => .r2
  | .sqrt _ _ => .r2
  | .muldiv _ _ _ _ => .r4
  | .muldivup _ _ _ _ => .r4
  | .encode _ _ => .r2
  | .encode144 _ _ => .r2
  | .decode _ _ => .r2
  | .decode144 _ _ => .r2
  | .fpmul _ _ _ => .r3
  | .muli _ _ _ => .r3
  | .muluq _ _ _ => .r3
  | .divuq _ _ _ => .r3
  | .fraction _ _ _ => .r3
  | .recip _ _ => .r2
  | .fpsqrt _ _ => .r2

/-- The word with the fields of R37; bits 31:28 are zero. -/
def packFields (op : Byte) (rd rs1 rs2 rs3 rd2 : Reg) : InstrWord :=
  BitVec.ofNat 32 (op.toNat + rd.val * 2 ^ 8 + rs1.val * 2 ^ 12 + rs2.val * 2 ^ 16 + rs3.val * 2 ^ 20 + rd2.val * 2 ^ 24)

/-- The encoder: an instruction's word (R37, R38, R42); an unused field is zero. -/
def encodeWord (i : Instr) : InstrWord :=
  match i with
  | .add rd rs1 rs2 => packFields i.opcode rd rs1 rs2 0 0
  | .sub rd rs1 rs2 => packFields i.opcode rd rs1 rs2 0 0
  | .mul rd rs1 rs2 => packFields i.opcode rd rs1 rs2 0 0
  | .mulw rd rd2 rs1 rs2 => packFields i.opcode rd rs1 rs2 0 rd2
  | .shl rd rs1 rs2 => packFields i.opcode rd rs1 rs2 0 0
  | .shr rd rs1 rs2 => packFields i.opcode rd rs1 rs2 0 0
  | .and rd rs1 rs2 => packFields i.opcode rd rs1 rs2 0 0
  | .msb rd rs1 => packFields i.opcode rd rs1 0 0 0
  | .lsb rd rs1 => packFields i.opcode rd rs1 0 0 0
  | .sqrt rd rs1 => packFields i.opcode rd rs1 0 0 0
  | .muldiv rd rs1 rs2 rs3 => packFields i.opcode rd rs1 rs2 rs3 0
  | .muldivup rd rs1 rs2 rs3 => packFields i.opcode rd rs1 rs2 rs3 0
  | .encode rd rs1 => packFields i.opcode rd rs1 0 0 0
  | .encode144 rd rs1 => packFields i.opcode rd rs1 0 0 0
  | .decode rd rs1 => packFields i.opcode rd rs1 0 0 0
  | .decode144 rd rs1 => packFields i.opcode rd rs1 0 0 0
  | .fpmul rd rs1 rs2 => packFields i.opcode rd rs1 rs2 0 0
  | .muli rd rs1 rs2 => packFields i.opcode rd rs1 rs2 0 0
  | .muluq rd rs1 rs2 => packFields i.opcode rd rs1 rs2 0 0
  | .divuq rd rs1 rs2 => packFields i.opcode rd rs1 rs2 0 0
  | .fraction rd rs1 rs2 => packFields i.opcode rd rs1 rs2 0 0
  | .recip rd rs1 => packFields i.opcode rd rs1 0 0 0
  | .fpsqrt rd rs1 => packFields i.opcode rd rs1 0 0 0

/-- An instruction word as bytes, byte 0 first: little-endian, byte 0 is the opcode (R26). -/
def bytesOfWord (w : InstrWord) : List Byte :=
  [BitVec.ofNat 8 (field w 0 8), BitVec.ofNat 8 (field w 8 8), BitVec.ofNat 8 (field w 16 8), BitVec.ofNat 8 (field w 24 8)]

/-- The word four bytes carry, byte 0 first (R26). -/
def wordOfBytes (b0 b1 b2 b3 : Byte) : InstrWord :=
  BitVec.ofNat 32 (b0.toNat + b1.toNat * 2 ^ 8 + b2.toNat * 2 ^ 16 + b3.toNat * 2 ^ 24)

/-- The decoder on bytes in transfer order: an instruction and the bytes after it. Every instruction is four bytes
long (R36), so fewer bytes are none. -/
def decodeBytes : List Byte → Option (Instr × List Byte)
  | b0 :: b1 :: b2 :: b3 :: rest => (decodeWord (wordOfBytes b0 b1 b2 b3)).map (fun i => (i, rest))
  | [] => none
  | [_] => none
  | [_, _] => none
  | [_, _, _] => none

/-- An instruction's bytes in transfer order (R26). -/
def encodeBytes (i : Instr) : List Byte :=
  bytesOfWord (encodeWord i)

/-- The 32-bit word whose low `nbits` bits are those of `w` and whose other bits are zero. -/
def tableWord (nbits w : Nat) : InstrWord :=
  BitVec.ofNat 32 (w % 2 ^ nbits)

/-- The instruction the decoder reads from the opcode table's numbering of a word, laid out as the four bytes of R26. -/
def decodeTableWord (nbits w : Nat) : Option Instr :=
  (decodeBytes (bytesOfWord (tableWord nbits w))).map Prod.fst

end Sys2Proof
end

