-- ==== Sys2Proof/Config.lean ====
section
/-! DEFINITION. The implementation parameters of 00_scope.md R5 and the values the spec leaves open
(93_implementation_defined.md U5 to U11). One instance's parameters are plain data, `Params`; the default of each is the
one R5 names. -/

namespace Sys2Proof

/-- `MULI_MODE` (R5, R77, D21): how MULI rounds a negative inexact product. -/
inductive MuliMode where
  /-- Floor toward minus infinity: the document's reading, the default. -/
  | floor
  /-- Truncation toward zero, with the range that goes with it (93 G4). -/
  | trunc
  deriving DecidableEq, Repr

/-- `MULUQ_LIMIT` and `FRACTION_LIMIT` (R5, R78, R81, D22, D23): the bound a result must stay below. -/
inductive ResultLimit where
  /-- `2^256`, the default. -/
  | pow256
  /-- `2^224` (93 G5, G6). -/
  | pow224
  deriving DecidableEq, Repr

/-- The number a `ResultLimit` stands for. -/
def ResultLimit.bound : ResultLimit → Nat
  | .pow256 => 2 ^ 256
  | .pow224 => 2 ^ 224

/-- `FPSQRT_LARGE` (R5, R83, D24): the result of FPSQRT for a raw of `2^144` or more. -/
inductive FpsqrtLarge where
  /-- `fpsqrt_large_gk`, the default R83 names (93 G3). -/
  | generalKnowledge
  /-- Left open, as 93 U8 allows: the result is `Config.fpsqrtLarge` of the raw. -/
  | leftOpen
  deriving DecidableEq, Repr

/-- `HOST_LIMB_WIDTH` (R5, R25, D11): how many bits one transfer on the host bus carries. -/
inductive LimbWidth where
  | w32
  | w64
  | w128
  | w256
  deriving DecidableEq, Repr

/-- The limb width `w` in bits (R25). -/
def LimbWidth.bits : LimbWidth → Nat
  | .w32 => 32
  | .w64 => 64
  | .w128 => 128
  | .w256 => 256

/-- How many limbs a 256-bit value has: `256 / w` (R25). -/
def LimbWidth.count : LimbWidth → Nat
  | .w32 => 8
  | .w64 => 4
  | .w128 => 2
  | .w256 => 1

/-- The parameters of one unit instance (R5). `UNIT_COUNT` is an argument of `Units.reset`; `LATENCY` is
`Config.latency`. -/
structure Params where
  muliMode      : MuliMode
  muluqLimit    : ResultLimit
  fractionLimit : ResultLimit
  fpsqrtLarge   : FpsqrtLarge
  limbWidth     : LimbWidth
  deriving DecidableEq, Repr

/-- The defaults of R5. `HOST_LIMB_WIDTH` is OPEN there and has none: DESIGN CHOICE 256 bits (log entry 8). -/
def Params.default : Params where
  muliMode := .floor
  muluqLimit := .pow256
  fractionLimit := .pow256
  fpsqrtLarge := .generalKnowledge
  limbWidth := .w256

/-- The result of FPSQRT for a raw of `2^144` or more, where the parameter leaves it open (93 U8): no body, so nothing
can be proved of its value (log entry 9). -/
opaque Config.fpsqrtLarge : Word → Word

/-- `LATENCY(op, operands)` (R5, R110): OPEN, and read by no rule and by nothing in this model (log entry 15). -/
opaque Config.latency : InstrWord → List Word → Nat

end Sys2Proof
end

