-- ==== Sys2Proof/Machine/State.lean ====
section
/-! DEFINITION. The unit's state as plain data (10_state.md), the reasons a step can stop, and the state after reset
(70_reset_and_hazards.md R104). -/

namespace Sys2Proof.Machine

/-- The error codes of 60_exceptions.md R87. Codes 6 and 7 are never written (R18, U4), so they have no constructor. -/
inductive ErrorCode where
  | noError
  | zeroInput
  | divisionByZero
  | overflow
  | invalidDomain
  | illegalOperation
  deriving DecidableEq, Repr

/-- STATUS (10_state.md R18). The reserved bits 6:3 and 31:16 read as 0 and ignore writes, so they are not stored (log
entry 13); the 32-bit value the host reads is `Status.word`. -/
structure Status where
  /-- `ERR`, bits 2:0. -/
  err    : ErrorCode
  /-- `STICKY`, bit 7. -/
  sticky : Bool
  /-- `LASTOP`, bits 15:8. -/
  lastop : Byte
  deriving DecidableEq, Repr

/-- The operations of the host port (R19), with the limb transfers a narrow bus splits WRITE_REG and READ_REG into (R20,
20_memory.md R25). -/
inductive HostOp where
  /-- `WRITE_REG(i, v)`. -/
  | writeReg (r : Reg) (v : Word)
  /-- `READ_REG(i)`. -/
  | readReg (r : Reg)
  /-- One limb of a WRITE_REG: limb `k` of register `r`; the limb's value is the low bits of `v`. -/
  | writeLimb (r : Reg) (k : Nat) (v : Word)
  /-- One limb of a READ_REG. -/
  | readLimb (r : Reg) (k : Nat)
  /-- `ISSUE(w)`. -/
  | issue (w : InstrWord)
  /-- `READ_STATUS()`. -/
  | readStatus
  /-- `WRITE_STATUS(v)`. -/
  | writeStatus (v : BitVec 32)
  /-- `RESET()`. -/
  | reset
  deriving DecidableEq, Repr

/-- An operation as it reaches the port, with the number of the host agent that makes it (20_memory.md R35). -/
structure Request where
  host : Nat
  op   : HostOp
  deriving DecidableEq, Repr

/-- What a host-port operation returns (the last column of R19). -/
inductive Reply where
  | nothing
  /-- The value of a register. -/
  | word (v : Word)
  /-- One limb of a register, zero-extended. -/
  | limb (v : Word)
  /-- The value of STATUS. -/
  | status (v : BitVec 32)
  deriving DecidableEq, Repr

/-- The unit with its host port. -/
structure State where
  /-- `x0` to `x15` (R14). -/
  regs     : Vector Word 16
  /-- Bit j of a register's entry says that its bits 32j+31 to 32j have been written since reset (R17, R20; log entry
  2). -/
  written  : Vector (BitVec 8) 16
  /-- STATUS (R18). -/
  status   : Status
  /-- The index of the next issued word in the host's sequence (R15). -/
  position : Nat
  /-- The one host agent this port belongs to (R35). No step changes it. -/
  host     : Nat
  /-- The model's own: the host's operations not served yet, oldest first (R31; log entry 4). -/
  inbox    : List Request
  /-- The model's own: what the last served operation returned (R19; log entry 5). -/
  reply    : Reply
  /-- The parameters of this instance (R5). No step changes them. -/
  params   : Params
  deriving DecidableEq, Repr

/-- The one model fault of the spec. -/
inductive Fault where
  /-- `UNWRITTEN_READ(i)` (R17, R89): a register that nothing has written since reset is read. Raised by `strictStep`
  alone, never by `step` (log entries 1 and 2). Safe: `strictStep` stops where the hardware goes on with a value the spec
  does not give. -/
  | unwrittenRead (r : Reg)
  deriving DecidableEq, Repr

/-- Where the model has no step. -/
inductive Refusal where
  /-- No meaning for this instruction yet: an arm of `exec` alone answers it, and none does. Safe. -/
  | notModelled (mnemonic : String)
  /-- A limb transfer whose limb index is not below `256 / w` (20_memory.md R28, U13: the port has no step for it).
  Raised by `serve`. Safe. -/
  | limbIndexOutOfRange (r : Reg) (k : Nat)
  /-- An operation of a second host on this port (R35, U12: the model has one host agent per port). Raised by
  `serveRequest`. Safe. -/
  | secondHost (host : Nat)
  deriving DecidableEq, Repr

/-- After reset (R104): STATUS is 0 and every register is unwritten. The spec gives an unwritten register no value;
DESIGN CHOICE 0 (log entry 1). The port belongs to host 0, nothing has been issued, nothing waits (log entries 4, 5, 6,
11), and the parameters are the defaults (log entries 7, 8). -/
def State.reset : State where
  regs := Vector.replicate 16 0#256
  written := Vector.replicate 16 0#8
  status := { err := .noError, sticky := false, lastop := 0#8 }
  position := 0
  host := 0
  inbox := []
  reply := .nothing
  params := Params.default

end Sys2Proof.Machine
end

