-- ==== Sys2Proof/Machine/Arith.lean ====
section
/-! DEFINITION. The derived functions of 00_scope.md R11 on mathematical integers, each by structural recursion, and the test
that a result fits its width (R13). -/

namespace Sys2Proof.Machine

/-- The greatest `j <= i` with `2^j <= v`, and 0 when there is none. -/
def msbFrom : Nat → Nat → Nat
  | 0, _ => 0
  | i + 1, v => if 2 ^ (i + 1) ≤ v then i + 1 else msbFrom i v

/-- `msb_index(v)` for `0 < v < 2^256`: the `i` with `2^i <= v < 2^(i+1)` (R11). -/
def msbIndex (v : Nat) : Nat :=
  msbFrom 255 v

/-- The greatest `j <= i` such that `2^j` divides `v`. -/
def lsbFrom : Nat → Nat → Nat
  | 0, _ => 0
  | i + 1, v => if v % 2 ^ (i + 1) = 0 then i + 1 else lsbFrom i v

/-- `lsb_index(v)` for `0 < v < 2^256`: the greatest `i` such that `2^i` divides `v` (R11). -/
def lsbIndex (v : Nat) : Nat :=
  lsbFrom 255 v

/-- The root found bit by bit: `r` holds the bits already decided, `n` bits are left. -/
def isqrtFrom : Nat → Nat → Nat → Nat
  | 0, r, _ => r
  | n + 1, r, v => if (r + 2 ^ n) * (r + 2 ^ n) ≤ v then isqrtFrom n (r + 2 ^ n) v else isqrtFrom n r v

/-- `isqrt(v)` for `v < 2^512`: the `k` with `k*k <= v < (k+1)*(k+1)` (R11). -/
def isqrt (v : Nat) : Nat :=
  isqrtFrom 256 0 v

/-- `cdiv(a, b)` for `b > 0` (R11). -/
def cdiv (a b : Nat) : Nat :=
  if a % b ≠ 0 then a / b + 1 else a / b

/-- `floor_signed(z, b)` for `b > 0`: the greatest `q` with `q*b <= z` (R11). -/
def floorSigned (z : Int) (b : Nat) : Int :=
  z / (b : Int)

/-- `trunc_signed(z, b)` for `b > 0`: `sign(z) * (|z| div b)` (R11). -/
def truncSigned (z : Int) (b : Nat) : Int :=
  z.sign * ((z.natAbs / b : Nat) : Int)

/-- A result checked against its bound: OVERFLOW when it does not fit, never a wrapped value (R13). -/
def fits (bound v : Nat) : Except ErrorCode Word :=
  if v < bound then .ok (BitVec.ofNat 256 v) else .error .overflow

end Sys2Proof.Machine
end

