-- ==== Sys2Proof/Machine/Flags.lean ====
section
/-! DEFINITION. STATUS: the numeric error codes, the 32-bit value the host reads, and the three ways STATUS changes
(10_state.md R18, R21; 60_exceptions.md R87, R90, R91). The unit has no other flag (R23). -/

namespace Sys2Proof.Machine

/-- The numeric code of an error (R87). -/
def ErrorCode.code : ErrorCode → Nat
  | .noError => 0
  | .zeroInput => 1
  | .divisionByZero => 2
  | .overflow => 3
  | .invalidDomain => 4
  | .illegalOperation => 5

/-- The 32-bit value of STATUS: ERR in bits 2:0, STICKY in bit 7, LASTOP in bits 15:8, every other bit 0 (R18). -/
def Status.word (s : Status) : BitVec 32 :=
  BitVec.ofNat 32 (s.err.code + s.sticky.toNat * 2 ^ 7 + s.lastop.toNat * 2 ^ 8)

/-- STATUS after an instruction that completes without error: ERR 0, LASTOP the opcode, STICKY unchanged (R91). -/
def Status.completed (op : Byte) (s : Status) : Status :=
  { s with err := .noError, lastop := op }

/-- STATUS after `raise e(op)`: ERR the code, STICKY 1, LASTOP the opcode (R90). -/
def Status.raised (e : ErrorCode) (op : Byte) (_ : Status) : Status :=
  { err := e, sticky := true, lastop := op }

/-- STATUS after `WRITE_STATUS(v)`: bit 7 of `v` clears STICKY; every other bit is ignored (R21). -/
def Status.hostWrite (v : BitVec 32) (s : Status) : Status :=
  { s with sticky := s.sticky && !v.getLsbD 7 }

/-- The errors R87 lists for each opcode, beside code 0 and code 5, which any word may raise; an opcode outside R42 has
none. -/
def errorsOf (op : Byte) : List ErrorCode :=
  match op.toNat with
  | 0x01 => [.overflow]
  | 0x02 => [.overflow]
  | 0x03 => [.overflow]
  | 0x10 => [.zeroInput]
  | 0x11 => [.zeroInput]
  | 0x20 => [.divisionByZero, .overflow]
  | 0x21 => [.divisionByZero, .overflow]
  | 0x30 => [.invalidDomain]
  | 0x31 => [.invalidDomain]
  | 0x32 => [.overflow]
  | 0x34 => [.overflow]
  | 0x35 => [.overflow]
  | 0x36 => [.overflow]
  | 0x37 => [.divisionByZero, .overflow]
  | 0x38 => [.divisionByZero, .overflow]
  | 0x39 => [.divisionByZero, .overflow]
  | _ => []

end Sys2Proof.Machine
end

