-- ==== Sys2Proof/Machine/Operands.lean ====
section
/-! DEFINITION. How operands are read: the number views of a register (00_scope.md R8, R9), the fixed-point split
(45_fixedpoint.md R78), limbs and bytes of a value (20_memory.md R25), and which registers an instruction names
(30_encoding.md R38, R42). -/

namespace Sys2Proof.Machine

/-- `to_signed(u)` (R8). -/
def toSigned (u : Word) : Int :=
  if u.toNat < 2 ^ 255 then (u.toNat : Int) else (u.toNat : Int) - 2 ^ 256

/-- `to_unsigned(z) = z mod 2^256` (R8). -/
def toUnsigned (z : Int) : Word :=
  BitVec.ofNat 256 (z % 2 ^ 256).toNat

/-- `zext_256(v)` of a value below `2^256` (R9). -/
def zext (v : Nat) : Word :=
  BitVec.ofNat 256 v

/-- `sext_256(v)` of an M-bit field (R9). No instruction applies it: the unit has no immediates (R39). -/
def sext (m : Nat) (v : Nat) : Word :=
  if v.testBit (m - 1) then toUnsigned ((v : Int) - 2 ^ m) else zext v

/-- The high 144 bits of a raw, its integer part (R78). -/
def rawHigh (r : Word) : Nat :=
  r.toNat / scale

/-- The low 112 bits of a raw, its fraction (R78). -/
def rawLow (r : Word) : Nat :=
  r.toNat % scale

/-- The bits a limb of `w` bits has, as a mask. -/
def limbMask (w : LimbWidth) : Word :=
  BitVec.ofNat 256 (2 ^ w.bits - 1)

/-- Limb `k` of a value: bits `[w*k+w-1 : w*k]` (R25). -/
def getLimb (w : LimbWidth) (k : Nat) (v : Word) : Word :=
  (v >>> (w.bits * k)) &&& limbMask w

/-- A value with its limb `k` replaced by the low `w` bits of `v` (R25; log entry 3). -/
def putLimb (w : LimbWidth) (k : Nat) (v old : Word) : Word :=
  (old &&& ~~~(limbMask w <<< (w.bits * k))) ||| ((v &&& limbMask w) <<< (w.bits * k))

/-- Byte `j` of a limb or of a whole value: bits `[8j+7 : 8j]` (R25). -/
def getByte (j : Nat) (v : Word) : Byte :=
  BitVec.ofNat 8 (v.toNat / 2 ^ (8 * j) % 2 ^ 8)

/-- The 32-bit parts of a register that limb `k` covers, as bits of its `written` entry. -/
def limbParts (w : LimbWidth) (k : Nat) : BitVec 8 :=
  BitVec.ofNat 8 (2 ^ (w.bits / 32) - 1) <<< (w.bits / 32 * k)

/-- The source registers, in the order rs1, rs2, rs3 (R38, R89). -/
def sources : Instr → List Reg
  | .add _ rs1 rs2 => [rs1, rs2]
  | .sub _ rs1 rs2 => [rs1, rs2]
  | .mul _ rs1 rs2 => [rs1, rs2]
  | .mulw _ _ rs1 rs2 => [rs1, rs2]
  | .shl _ rs1 rs2 => [rs1, rs2]
  | .shr _ rs1 rs2 => [rs1, rs2]
  | .and _ rs1 rs2 => [rs1, rs2]
  | .msb _ rs1 => [rs1]
  | .lsb _ rs1 => [rs1]
  | .sqrt _ rs1 => [rs1]
  | .muldiv _ rs1 rs2 rs3 => [rs1, rs2, rs3]
  | .muldivup _ rs1 rs2 rs3 => [rs1, rs2, rs3]
  | .encode _ rs1 => [rs1]
  | .encode144 _ rs1 => [rs1]
  | .decode _ rs1 => [rs1]
  | .decode144 _ rs1 => [rs1]
  | .fpmul _ rs1 rs2 => [rs1, rs2]
  | .muli _ rs1 rs2 => [rs1, rs2]
  | .muluq _ rs1 rs2 => [rs1, rs2]
  | .divuq _ rs1 rs2 => [rs1, rs2]
  | .fraction _ rs1 rs2 => [rs1, rs2]
  | .recip _ rs1 => [rs1]
  | .fpsqrt _ rs1 => [rs1]

/-- The destination registers (R38): MULW alone has two. -/
def dests : Instr → List Reg
  | .add rd _ _ => [rd]
  | .sub rd _ _ => [rd]
  | .mul rd _ _ => [rd]
  | .mulw rd rd2 _ _ => [rd, rd2]
  | .shl rd _ _ => [rd]
  | .shr rd _ _ => [rd]
  | .and rd _ _ => [rd]
  | .msb rd _ => [rd]
  | .lsb rd _ => [rd]
  | .sqrt rd _ => [rd]
  | .muldiv rd _ _ _ => [rd]
  | .muldivup rd _ _ _ => [rd]
  | .encode rd _ => [rd]
  | .encode144 rd _ => [rd]
  | .decode rd _ => [rd]
  | .decode144 rd _ => [rd]
  | .fpmul rd _ _ => [rd]
  | .muli rd _ _ => [rd]
  | .muluq rd _ _ => [rd]
  | .divuq rd _ _ => [rd]
  | .fraction rd _ _ => [rd]
  | .recip rd _ => [rd]
  | .fpsqrt rd _ => [rd]

end Sys2Proof.Machine
end

