-- ==== Sys2Proof/Machine/Ops.lean ====
section
/-! DEFINITION. The named operations over the registers, the two ways an instruction ends (60_exceptions.md R90, R91), and
RESET. An error is the unit's whole exception mechanism: it saves nothing, changes no mode and transfers no control
(R94), and there is no return from it (R95). -/

namespace Sys2Proof.Machine

/-- What running one instruction or one host-port operation answers. -/
abbrev Result := Host.Outcome State Fault Refusal

/-- `x[i]` (R10). -/
def State.reg (s : State) (r : Reg) : Word :=
  s.regs[r.val]

/-- Which 32-bit parts of a register have been written since reset (R20). -/
def State.parts (s : State) (r : Reg) : BitVec 8 :=
  s.written[r.val]

/-- The register has been written: all of it, since reset (R17, R20). -/
def State.isWritten (s : State) (r : Reg) : Bool :=
  s.parts r = 0xFF#8

/-- `x[i] <- v` (R10): the register is no longer unwritten (R17, R19). -/
def State.setReg (s : State) (r : Reg) (v : Word) : State :=
  { s with regs := s.regs.set r.val v, written := s.written.set r.val 0xFF#8 }

/-- One limb of a register written by the host (R20, R25): its bits change at once, and its parts count as written (log
entry 3). -/
def State.setLimb (s : State) (r : Reg) (k : Nat) (v : Word) : State :=
  { s with
    regs := s.regs.set r.val (putLimb s.params.limbWidth k v (s.reg r)),
    written := s.written.set r.val (s.parts r ||| limbParts s.params.limbWidth k) }

/-- The end of an instruction without error: STATUS as R91 says. -/
def State.complete (s : State) (op : Byte) : State :=
  { s with status := s.status.completed op }

/-- `raise e(op)`: taking an error. STATUS is all that changes (R90, R92). -/
def State.raise (s : State) (e : ErrorCode) (op : Byte) : State :=
  { s with status := s.status.raised e op }

/-- Ends an instruction with one destination: a value is written and STATUS completed, an error is raised (R90, R91). -/
def finish (op : Byte) (rd : Reg) (value : Except ErrorCode Word) (s : State) : Result :=
  match value with
  | .ok v => .next ((s.setReg rd v).complete op)
  | .error e => .next (s.raise e op)

/-- `RESET()` (70_reset_and_hazards.md R104): STATUS is 0 and every register is unwritten, with the value it has at
power-on (log entry 1). The host's other operations, the issue index and the parameters stay (log entry 6). -/
def State.hardReset (s : State) : State :=
  { s with regs := State.reset.regs, written := State.reset.written, status := State.reset.status }

end Sys2Proof.Machine
end

