-- ==== Sys2Proof/Machine/BitScan.lean ====
section
/-! DEFINITION. BitScanner: MSB and LSB (42_bitscan.md R61, R62). -/

namespace Sys2Proof.Machine

/-- MSB's value (R61): ZERO_INPUT on zero, else the index of the highest set bit. -/
def msbValue (v : Word) : Except ErrorCode Word :=
  if v.toNat = 0 then .error .zeroInput else .ok (zext (msbIndex v.toNat))

/-- MSB (R61). -/
def execMsb (rd rs1 : Reg) (s : State) : Result :=
  finish 0x10#8 rd (msbValue (s.reg rs1)) s

/-- LSB's value (R62): ZERO_INPUT on zero, else the index of the lowest set bit. -/
def lsbValue (v : Word) : Except ErrorCode Word :=
  if v.toNat = 0 then .error .zeroInput else .ok (zext (lsbIndex v.toNat))

/-- LSB (R62). -/
def execLsb (rd rs1 : Reg) (s : State) : Result :=
  finish 0x11#8 rd (lsbValue (s.reg rs1)) s

end Sys2Proof.Machine
end

