-- ==== Sys2Proof/Machine/FixedPoint.lean ====
section
/-! DEFINITION. FixedPoint: ENCODE, ENCODE144, DECODE, DECODE144, FPMUL, MULI, MULUQ, DIVUQ, FRACTION, RECIP, FPSQRT
(45_fixedpoint.md R72 to R85). A fixed-point operand is a register's raw value; no tag is kept (R84). -/

namespace Sys2Proof.Machine

/-- ENCODE's value (R72): the input's domain is `0 <= v < 2^112`. -/
def encodeValue (v : Word) : Except ErrorCode Word :=
  if v.toNat < 2 ^ 112 then .ok (BitVec.ofNat 256 (v.toNat * scale)) else .error .invalidDomain

/-- ENCODE (R72). -/
def execEncode (rd rs1 : Reg) (s : State) : Result :=
  finish 0x30#8 rd (encodeValue (s.reg rs1)) s

/-- ENCODE144's value (R73): the input's domain is `0 <= v < 2^144`. -/
def encode144Value (v : Word) : Except ErrorCode Word :=
  if v.toNat < 2 ^ 144 then .ok (BitVec.ofNat 256 (v.toNat * scale)) else .error .invalidDomain

/-- ENCODE144 (R73). -/
def execEncode144 (rd rs1 : Reg) (s : State) : Result :=
  finish 0x31#8 rd (encode144Value (s.reg rs1)) s

/-- DECODE's value (R74): a raw of `2^224` or more is OVERFLOW. -/
def decodeValue (r : Word) : Except ErrorCode Word :=
  if r.toNat < 2 ^ 224 then .ok (BitVec.ofNat 256 (r.toNat / scale)) else .error .overflow

/-- DECODE (R74). -/
def execDecode (rd rs1 : Reg) (s : State) : Result :=
  finish 0x32#8 rd (decodeValue (s.reg rs1)) s

/-- DECODE144 (R75): every raw is in the domain. -/
def execDecode144 (rd rs1 : Reg) (s : State) : Result :=
  finish 0x33#8 rd (.ok (BitVec.ofNat 256 ((s.reg rs1).toNat / scale))) s

/-- FPMUL (R76): raw times unsigned integer, checked. -/
def execFpmul (rd rs1 rs2 : Reg) (s : State) : Result :=
  finish 0x34#8 rd (fits wordBound ((s.reg rs1).toNat * (s.reg rs2).toNat)) s

/-- MULI's value (R77): the product decoded to a signed integer, rounded and bounded as `MULI_MODE` says. -/
def muliValue (mode : MuliMode) (r y : Word) : Except ErrorCode Word :=
  match mode with
  | .floor =>
    let z := floorSigned ((r.toNat : Int) * toSigned y) scale
    if z < -(2 ^ 255) ∨ z > 2 ^ 255 - 1 then .error .overflow else .ok (toUnsigned z)
  | .trunc =>
    let m := r.toNat * (toSigned y).natAbs / scale
    if 2 ^ 255 ≤ m then .error .overflow else .ok (toUnsigned ((toSigned y).sign * (m : Int)))

/-- MULI (R77). -/
def execMuli (rd rs1 rs2 : Reg) (s : State) : Result :=
  finish 0x35#8 rd (muliValue s.params.muliMode (s.reg rs1) (s.reg rs2)) s

/-- MULUQ's value (R78): the four-term expansion over 144-bit and 112-bit parts, the upper test before the sum test. -/
def muluqValue (limit : ResultLimit) (r1 r2 : Word) : Except ErrorCode Word :=
  let upper := rawHigh r1 * rawHigh r2
  if upper * scale < 2 ^ 256 then
    fits limit.bound (upper * scale + rawHigh r1 * rawLow r2 + rawHigh r2 * rawLow r1 + rawLow r1 * rawLow r2 / scale)
  else .error .overflow

/-- MULUQ (R78). -/
def execMuluq (rd rs1 rs2 : Reg) (s : State) : Result :=
  finish 0x36#8 rd (muluqValue s.params.muluqLimit (s.reg rs1) (s.reg rs2)) s

/-- DIVUQ's value (R79): the zero divisor before the identity short-circuit, then the 224-bit bound. -/
def divuqValue (r1 r2 : Word) : Except ErrorCode Word :=
  if r2.toNat = 0 then .error .divisionByZero
  else if r1.toNat = r2.toNat then .ok (BitVec.ofNat 256 scale)
  else fits (2 ^ 224) (r1.toNat * scale / r2.toNat)

/-- DIVUQ (R79). -/
def execDivuq (rd rs1 rs2 : Reg) (s : State) : Result :=
  finish 0x37#8 rd (divuqValue (s.reg rs1) (s.reg rs2)) s

/-- FRACTION's value (R81): the zero divisor before the `n = 0` short-circuit, then the limit. -/
def fractionValue (limit : ResultLimit) (n d : Word) : Except ErrorCode Word :=
  if d.toNat = 0 then .error .divisionByZero
  else if n.toNat = 0 then .ok 0#256
  else fits limit.bound (n.toNat * scale / d.toNat)

/-- FRACTION (R81). -/
def execFraction (rd rs1 rs2 : Reg) (s : State) : Result :=
  finish 0x38#8 rd (fractionValue s.params.fractionLimit (s.reg rs1) (s.reg rs2)) s

/-- RECIP's value (R82). -/
def recipValue (r : Word) : Except ErrorCode Word :=
  if r.toNat = 0 then .error .divisionByZero
  else if r.toNat = 1 then .error .overflow
  else .ok (BitVec.ofNat 256 (2 ^ 224 / r.toNat))

/-- RECIP (R82). -/
def execRecip (rd rs1 : Reg) (s : State) : Result :=
  finish 0x39#8 rd (recipValue (s.reg rs1)) s

/-- `fpsqrt_large_gk(r)` (R83, 93 G3). -/
def fpsqrtLargeGk (r : Nat) : Nat :=
  let s := 255 - msbIndex r - (255 - msbIndex r) % 2
  isqrt (r * 2 ^ s) * 2 ^ ((112 - s) / 2)

/-- `FPSQRT_LARGE(r)` (R5, R83): the default function, or left open (93 U8; log entry 9). -/
def fpsqrtLargeValue (p : FpsqrtLarge) (r : Word) : Word :=
  match p with
  | .generalKnowledge => BitVec.ofNat 256 (fpsqrtLargeGk r.toNat)
  | .leftOpen => Config.fpsqrtLarge r

/-- FPSQRT's value (R83): the exact floor of the root below `2^144`, `FPSQRT_LARGE` from there on. -/
def fpsqrtValue (p : FpsqrtLarge) (r : Word) : Word :=
  if r.toNat < 2 ^ 144 then BitVec.ofNat 256 (isqrt (r.toNat * scale)) else fpsqrtLargeValue p r

/-- FPSQRT (R83): it has no error. -/
def execFpsqrt (rd rs1 : Reg) (s : State) : Result :=
  finish 0x3A#8 rd (.ok (fpsqrtValue s.params.fpsqrtLarge (s.reg rs1))) s

end Sys2Proof.Machine
end

