-- ==== Sys2Proof/Machine/IntegerSqrt.lean ====
section
/-! DEFINITION. IntegerSqrt: SQRT (43_isqrt.md R65). -/

namespace Sys2Proof.Machine

/-- SQRT (R65): the floor of the square root, for every word; it has no error. -/
def execSqrt (rd rs1 : Reg) (s : State) : Result :=
  finish 0x18#8 rd (.ok (zext (isqrt (s.reg rs1).toNat))) s

end Sys2Proof.Machine
end

