-- ==== Sys2Proof/Machine/MulDiv.lean ====
section
/-! DEFINITION. FullPrecisionMulDiv: MULDIV and MULDIVUP (44_muldiv.md R68, R69). -/

namespace Sys2Proof.Machine

/-- MULDIV's value (R68): the zero divisor is tested first, then the quotient's width. -/
def muldivValue (a b d : Word) : Except ErrorCode Word :=
  if d.toNat = 0 then .error .divisionByZero else fits wordBound (a.toNat * b.toNat / d.toNat)

/-- MULDIV (R68). -/
def execMuldiv (rd rs1 rs2 rs3 : Reg) (s : State) : Result :=
  finish 0x20#8 rd (muldivValue (s.reg rs1) (s.reg rs2) (s.reg rs3)) s

/-- MULDIVUP's value (R69): the rounded-up quotient must fit. -/
def muldivupValue (a b d : Word) : Except ErrorCode Word :=
  if d.toNat = 0 then .error .divisionByZero else fits wordBound (cdiv (a.toNat * b.toNat) d.toNat)

/-- MULDIVUP (R69). -/
def execMuldivup (rd rs1 rs2 rs3 : Reg) (s : State) : Result :=
  finish 0x21#8 rd (muldivupValue (s.reg rs1) (s.reg rs2) (s.reg rs3)) s

end Sys2Proof.Machine
end

