-- ==== Sys2Proof/Machine/Word256.lean ====
section
/-! DEFINITION. Word256: ADD, SUB, MUL, MULW, SHL, SHR, AND (41_word256.md R51 to R58). -/

namespace Sys2Proof.Machine

/-- ADD (R51): checked addition. -/
def execAdd (rd rs1 rs2 : Reg) (s : State) : Result :=
  finish 0x01#8 rd (fits wordBound ((s.reg rs1).toNat + (s.reg rs2).toNat)) s

/-- SUB's value (R52): the exact difference, OVERFLOW when it is negative. -/
def subValue (a b : Word) : Except ErrorCode Word :=
  if a.toNat < b.toNat then .error .overflow else .ok (BitVec.ofNat 256 (a.toNat - b.toNat))

/-- SUB (R52). -/
def execSub (rd rs1 rs2 : Reg) (s : State) : Result :=
  finish 0x02#8 rd (subValue (s.reg rs1) (s.reg rs2)) s

/-- MUL (R53): checked multiplication. -/
def execMul (rd rs1 rs2 : Reg) (s : State) : Result :=
  finish 0x03#8 rd (fits wordBound ((s.reg rs1).toNat * (s.reg rs2).toNat)) s

/-- MULW (R54): the low half of the exact product to `rd`, the high half to `rd2`, both from the sources as they were.
`rd = rd2` is ILLEGAL_OPERATION (R43; such a word never decodes, log entry 10). -/
def execMulw (rd rd2 rs1 rs2 : Reg) (s : State) : Result :=
  if rd = rd2 then .next (s.raise .illegalOperation 0x04#8)
  else
    let p := (s.reg rs1).toNat * (s.reg rs2).toNat
    .next (((s.setReg rd (BitVec.ofNat 256 (p % wordBound))).setReg rd2 (BitVec.ofNat 256 (p / wordBound))).complete 0x04#8)

/-- SHL's value (R55): `(a * 2^n) mod 2^256`, which is 0 when `n >= 256`. -/
def shlValue (a n : Word) : Word :=
  if n.toNat < 256 then BitVec.ofNat 256 (a.toNat * 2 ^ n.toNat) else 0#256

/-- SHL (R55): raw shift left by the full register value. -/
def execShl (rd rs1 rs2 : Reg) (s : State) : Result :=
  finish 0x05#8 rd (.ok (shlValue (s.reg rs1) (s.reg rs2))) s

/-- SHR's value (R56): `a div 2^n`, which is 0 when `n >= 256`. -/
def shrValue (a n : Word) : Word :=
  if n.toNat < 256 then BitVec.ofNat 256 (a.toNat / 2 ^ n.toNat) else 0#256

/-- SHR (R56): raw logical shift right by the full register value. -/
def execShr (rd rs1 rs2 : Reg) (s : State) : Result :=
  finish 0x06#8 rd (.ok (shrValue (s.reg rs1) (s.reg rs2))) s

/-- AND (R57): raw mask. -/
def execAnd (rd rs1 rs2 : Reg) (s : State) : Result :=
  finish 0x07#8 rd (.ok (s.reg rs1 &&& s.reg rs2)) s

end Sys2Proof.Machine
end

