-- ==== Sys2Proof/Machine/Dispatch.lean ====
section
/-! DEFINITION. Which meaning each instruction has (30_encoding.md R42): one arm per constructor. -/

namespace Sys2Proof.Machine

def exec (i : Instr) (s : State) : Host.Outcome State Fault Refusal :=
  match i with
  | .add rd rs1 rs2 => Sys2Proof.Machine.execAdd rd rs1 rs2 s
  | .sub rd rs1 rs2 => Sys2Proof.Machine.execSub rd rs1 rs2 s
  | .mul rd rs1 rs2 => Sys2Proof.Machine.execMul rd rs1 rs2 s
  | .mulw rd rd2 rs1 rs2 => Sys2Proof.Machine.execMulw rd rd2 rs1 rs2 s
  | .shl rd rs1 rs2 => Sys2Proof.Machine.execShl rd rs1 rs2 s
  | .shr rd rs1 rs2 => Sys2Proof.Machine.execShr rd rs1 rs2 s
  | .and rd rs1 rs2 => Sys2Proof.Machine.execAnd rd rs1 rs2 s
  | .msb rd rs1 => Sys2Proof.Machine.execMsb rd rs1 s
  | .lsb rd rs1 => Sys2Proof.Machine.execLsb rd rs1 s
  | .sqrt rd rs1 => Sys2Proof.Machine.execSqrt rd rs1 s
  | .muldiv rd rs1 rs2 rs3 => Sys2Proof.Machine.execMuldiv rd rs1 rs2 rs3 s
  | .muldivup rd rs1 rs2 rs3 => Sys2Proof.Machine.execMuldivup rd rs1 rs2 rs3 s
  | .encode rd rs1 => Sys2Proof.Machine.execEncode rd rs1 s
  | .encode144 rd rs1 => Sys2Proof.Machine.execEncode144 rd rs1 s
  | .decode rd rs1 => Sys2Proof.Machine.execDecode rd rs1 s
  | .decode144 rd rs1 => Sys2Proof.Machine.execDecode144 rd rs1 s
  | .fpmul rd rs1 rs2 => Sys2Proof.Machine.execFpmul rd rs1 rs2 s
  | .muli rd rs1 rs2 => Sys2Proof.Machine.execMuli rd rs1 rs2 s
  | .muluq rd rs1 rs2 => Sys2Proof.Machine.execMuluq rd rs1 rs2 s
  | .divuq rd rs1 rs2 => Sys2Proof.Machine.execDivuq rd rs1 rs2 s
  | .fraction rd rs1 rs2 => Sys2Proof.Machine.execFraction rd rs1 rs2 s
  | .recip rd rs1 => Sys2Proof.Machine.execRecip rd rs1 s
  | .fpsqrt rd rs1 => Sys2Proof.Machine.execFpsqrt rd rs1 s

end Sys2Proof.Machine
end

