-- ==== Sys2Proof/Machine/Port.lean ====
section
/-! DEFINITION. The host port: what each operation does and what it returns (10_state.md R19 to R22, 20_memory.md R25, R28,
R35). -/

namespace Sys2Proof.Machine

/-- `ISSUE(w)` (R22, 30_encoding.md R43): an illegal word raises ILLEGAL_OPERATION and has no other effect; a legal one is
executed. The issue index advances by one whatever the outcome (R15). -/
def issueWord (w : InstrWord) (s : State) : Result :=
  match decodeWord w with
  | none => .next (({ s with position := s.position + 1 } : State).raise .illegalOperation (opcodeOf w))
  | some i => exec i { s with position := s.position + 1 }

/-- One operation of the host port (R19). What it returns stands in `reply`. A limb transfer needs a limb index below
`256 / w` (R28). -/
def serve (op : HostOp) (s : State) : Result :=
  match op with
  | .writeReg r v => .next (s.setReg r v)
  | .readReg r => .next { s with reply := .word (s.reg r) }
  | .writeLimb r k v =>
    if k < s.params.limbWidth.count then .next (s.setLimb r k v) else .refused (.limbIndexOutOfRange r k)
  | .readLimb r k =>
    if k < s.params.limbWidth.count then .next { s with reply := .limb (getLimb s.params.limbWidth k (s.reg r)) }
    else .refused (.limbIndexOutOfRange r k)
  | .issue w => issueWord w s
  | .readStatus => .next { s with reply := .status s.status.word }
  | .writeStatus v => .next { s with status := s.status.hostWrite v }
  | .reset => .next s.hardReset

/-- The oldest operation taken off the port: nothing has been returned for it yet. -/
def State.accept (s : State) (rest : List Request) : State :=
  { s with inbox := rest, reply := .nothing }

/-- Serves the oldest request. The port has one host agent: another one's request is refused (R35). -/
def serveRequest (q : Request) (rest : List Request) (s : State) : Result :=
  if q.host = s.host then serve q.op (s.accept rest) else .refused (.secondHost q.host)

end Sys2Proof.Machine
end

