-- ==== Sys2Proof/Machine/Step.lean ====
section
/-! DEFINITION. One step: the oldest host-port operation is served to completion (10_state.md R19, R22; 20_memory.md R31); with
none waiting the unit is idle (60_exceptions.md R101). -/

namespace Sys2Proof.Machine

/-- One step of the unit with its port. -/
def step (s : State) : Host.Outcome State Fault Refusal :=
  match s.inbox with
  | [] => .next s
  | q :: rest => Sys2Proof.Machine.serveRequest q rest s

/-- The state whose next step is the ISSUE of the word: the unit fetches nothing (R15, 70_reset_and_hazards.md R105), its
instruction words come from its host's ISSUE operations (log entry 4). -/
def State.withFetchWord (s : State) (nbits w : Nat) : State :=
  { s with inbox := { host := s.host, op := .issue (Sys2Proof.tableWord nbits w) } :: s.inbox }

end Sys2Proof.Machine
end

