-- ==== Sys2Proof/Machine/Asm.lean ====
section
/-! DEFINITION. The assembler syntax (30_encoding.md R41, R42, R45) and the pseudo-instructions (R46). Text is a list of
characters. No step reads it; it says which instruction a line of the spec's notation stands for (log entry 18). -/

namespace Sys2Proof.Machine

/-- `MOV xd, xs` is `AND xd, xs, xs` (R46). -/
def pseudoMov (rd rs : Reg) : Instr :=
  .and rd rs rs

/-- `ZERO xd, xs` is `SUB xd, xs, xs` (R46). -/
def pseudoZero (rd rs : Reg) : Instr :=
  .sub rd rs rs

/-- The mnemonic and the operands in assembler order, destinations first (R41, R42, R45). -/
def asmParts : Instr → List Char × List Reg
  | .add rd rs1 rs2 => ("ADD".toList, [rd, rs1, rs2])
  | .sub rd rs1 rs2 => ("SUB".toList, [rd, rs1, rs2])
  | .mul rd rs1 rs2 => ("MUL".toList, [rd, rs1, rs2])
  | .mulw rd rd2 rs1 rs2 => ("MULW".toList, [rd, rd2, rs1, rs2])
  | .shl rd rs1 rs2 => ("SHL".toList, [rd, rs1, rs2])
  | .shr rd rs1 rs2 => ("SHR".toList, [rd, rs1, rs2])
  | .and rd rs1 rs2 => ("AND".toList, [rd, rs1, rs2])
  | .msb rd rs1 => ("MSB".toList, [rd, rs1])
  | .lsb rd rs1 => ("LSB".toList, [rd, rs1])
  | .sqrt rd rs1 => ("SQRT".toList, [rd, rs1])
  | .muldiv rd rs1 rs2 rs3 => ("MULDIV".toList, [rd, rs1, rs2, rs3])
  | .muldivup rd rs1 rs2 rs3 => ("MULDIVUP".toList, [rd, rs1, rs2, rs3])
  | .encode rd rs1 => ("ENCODE".toList, [rd, rs1])
  | .encode144 rd rs1 => ("ENCODE144".toList, [rd, rs1])
  | .decode rd rs1 => ("DECODE".toList, [rd, rs1])
  | .decode144 rd rs1 => ("DECODE144".toList, [rd, rs1])
  | .fpmul rd rs1 rs2 => ("FPMUL".toList, [rd, rs1, rs2])
  | .muli rd rs1 rs2 => ("MULI".toList, [rd, rs1, rs2])
  | .muluq rd rs1 rs2 => ("MULUQ".toList, [rd, rs1, rs2])
  | .divuq rd rs1 rs2 => ("DIVUQ".toList, [rd, rs1, rs2])
  | .fraction rd rs1 rs2 => ("FRACTION".toList, [rd, rs1, rs2])
  | .recip rd rs1 => ("RECIP".toList, [rd, rs1])
  | .fpsqrt rd rs1 => ("FPSQRT".toList, [rd, rs1])

/-- A register operand: `x0` to `x15` (R45). -/
def regText (r : Reg) : List Char :=
  'x' :: (if r.val < 10 then [Char.ofNat (48 + r.val)] else ['1', Char.ofNat (48 + (r.val - 10))])

/-- Operands separated by `, ` (R45). -/
def operandsText : List Reg → List Char
  | [] => []
  | [r] => regText r
  | r :: rs => regText r ++ [',', ' '] ++ operandsText rs

/-- An instruction's line (R45). -/
def asmText (i : Instr) : List Char :=
  (asmParts i).1 ++ [' '] ++ operandsText (asmParts i).2

/-- A register operand read back. -/
def readReg (t : List Char) : Option Reg :=
  (List.finRange 16).find? (fun r => regText r = t)

/-- The pieces of a text between commas; each piece after the first starts with one space, which is dropped (R45). -/
def splitOperands : List Char → List Char → List (List Char)
  | [], piece => [piece.reverse]
  | ',' :: ' ' :: t, piece => piece.reverse :: splitOperands t []
  | c :: t, piece => splitOperands t (c :: piece)

/-- An upper-case letter in place of a lower-case one: an assembler may accept mnemonics in any case (R45). -/
def upper (c : Char) : Char :=
  if 97 ≤ c.toNat ∧ c.toNat ≤ 122 then Char.ofNat (c.toNat - 32) else c

/-- A line without its comment, which starts with `;`, and without the blanks before it (R45). -/
def stripComment (line : List Char) : List Char :=
  ((line.takeWhile (· ≠ ';')).reverse.dropWhile (· = ' ')).reverse

/-- The instruction of a mnemonic and its operands, with the two pseudo-instructions (R42, R46). -/
def instrOf (mnemonic : List Char) (ops : List Reg) : Option Instr :=
  match ops with
  | [a, b] =>
    if mnemonic = "MOV".toList then some (pseudoMov a b)
    else if mnemonic = "ZERO".toList then some (pseudoZero a b)
    else [Instr.msb a b, .lsb a b, .sqrt a b, .encode a b, .encode144 a b, .decode a b, .decode144 a b, .recip a b,
      .fpsqrt a b].find? (fun i => (asmParts i).1 = mnemonic)
  | [a, b, c] =>
    [Instr.add a b c, .sub a b c, .mul a b c, .shl a b c, .shr a b c, .and a b c, .fpmul a b c, .muli a b c, .muluq a b c,
      .divuq a b c, .fraction a b c].find? (fun i => (asmParts i).1 = mnemonic)
  | [a, b, c, d] =>
    [Instr.mulw a b c d, .muldiv a b c d, .muldivup a b c d].find? (fun i => (asmParts i).1 = mnemonic)
  | _ => none

/-- The instruction a line of assembler text stands for, or none (R45). -/
def assemble (line : List Char) : Option Instr :=
  let text := stripComment line
  let mnemonic := (text.takeWhile (· ≠ ' ')).map upper
  let rest := (text.dropWhile (· ≠ ' ')).drop 1
  match (splitOperands rest []).mapM readReg with
  | none => none
  | some ops => instrOf mnemonic ops

end Sys2Proof.Machine
end

