-- ==== Sys2Proof/Machine/Datapath.lean ====
section
/-! DEFINITION. The informative datapaths of the spec: the 512-bit product (41_word256.md R54), the bit scan (42_bitscan.md
R63), the Newton square root (43_isqrt.md R66), the mulDiv reduction (44_muldiv.md R70) and DIVUQ's long division
(45_fixedpoint.md R80), each as the spec's pseudocode writes it. The instructions' rules are normative, so no meaning
calls these (log entry 16). -/

namespace Sys2Proof.Machine

/-- The windows of the bit scan (R63). -/
def scanWindows : List Nat :=
  [128, 64, 32, 16, 8, 4, 2, 1]

/-- The loop of `msb(v)` (R63): what is left of the word and the offset so far. -/
def msbScan : List Nat → Nat → Nat → Nat
  | [], _, r => r
  | k :: ks, v, r => if 2 ^ k ≤ v then msbScan ks (v / 2 ^ k) (r + k) else msbScan ks v r

/-- `msb(v)` as the scanner computes it (R63). -/
def msbDatapath (v : Nat) : Nat :=
  msbScan scanWindows v 0

/-- The loop of `lsb(v)` (R63). -/
def lsbScan : List Nat → Nat → Nat → Nat
  | [], _, r => r
  | k :: ks, v, r => if v % 2 ^ k ≠ 0 then lsbScan ks v (r - k) else lsbScan ks (v / 2 ^ k) r

/-- `lsb(v)` as the scanner computes it (R63). -/
def lsbDatapath (v : Nat) : Nat :=
  lsbScan scanWindows v 255

/-- The six halving comparisons of the initial guess: the threshold's exponent and the factor's (R66). -/
def seedTable : List (Nat × Nat) :=
  [(128, 64), (64, 32), (32, 16), (16, 8), (8, 4), (4, 2)]

/-- The initial guess (R66): the seventh comparison, against `2^3`, doubles it. -/
def sqrtSeed : List (Nat × Nat) → Nat → Nat → Nat
  | [], xx, r => if 2 ^ 3 ≤ xx then r * 2 else r
  | (t, f) :: rest, xx, r => if 2 ^ t ≤ xx then sqrtSeed rest (xx / 2 ^ t) (r * 2 ^ f) else sqrtSeed rest xx r

/-- `n` Newton steps `r <- (r + v div r) div 2` (R66). -/
def newtonSteps : Nat → Nat → Nat → Nat
  | 0, _, r => r
  | n + 1, v, r => newtonSteps n v ((r + v / r) / 2)

/-- `sqrt_datapath(v)` (R66). -/
def sqrtDatapath (v : Nat) : Nat :=
  if v = 0 then 0
  else
    let r := newtonSteps 7 v (sqrtSeed seedTable v 1)
    min r (v / r)

/-- The high and low half of a product from two residues (R54): `mm = p mod (2^256 - 1)` and `lo = p mod 2^256`. -/
def mulwDatapath (a b : Nat) : Nat × Nat :=
  let mm := a * b % (2 ^ 256 - 1)
  let lo := a * b % 2 ^ 256
  let hi := (mm + 2 ^ 256 - lo) % 2 ^ 256
  (if mm < lo then (hi + 2 ^ 256 - 1) % 2 ^ 256 else hi, lo)

/-- `n` Newton steps of the inverse modulo `2^256`: `inv <- inv * (2 - d' * inv)` (R70). -/
def inverseSteps : Nat → Nat → Nat → Nat
  | 0, _, inv => inv
  | n + 1, d', inv => inverseSteps n d' ((((inv : Int) * (2 - (d' : Int) * (inv : Int))) % 2 ^ 256).toNat)

/-- `muldiv_datapath(a, b, d)` for `d != 0` (R70). -/
def muldivDatapath (a b d : Nat) : Except ErrorCode Nat :=
  let hi := a * b / 2 ^ 256
  let lo := a * b % 2 ^ 256
  if hi = 0 then .ok (lo / d)
  else if d ≤ hi then .error .overflow
  else
    let rem := a * b % d
    let hi' := if lo < rem then hi - 1 else hi
    let lo' := (lo + 2 ^ 256 - rem) % 2 ^ 256
    let twos := d &&& ((2 ^ 256 - d) % 2 ^ 256)
    let d' := d / twos
    let lo'' := (lo' / twos) ||| (hi' * (2 ^ 256 / twos) % 2 ^ 256)
    .ok (lo'' * inverseSteps 6 d' ((3 * d' % 2 ^ 256) ^^^ 2) % 2 ^ 256)

/-- The fraction bits of DIVUQ's long division, from bit `n - 1` down to bit 0, ending early on a zero remainder
(R80). -/
def divuqBits : Nat → Nat → Nat → Nat → Nat
  | 0, _, _, q => q
  | n + 1, r2, rem, q =>
    if rem = 0 then q
    else if r2 ≤ 2 * rem then divuqBits n r2 (2 * rem - r2) (q + 2 ^ n)
    else divuqBits n r2 (2 * rem) q

/-- `divuq_datapath(r1, r2)` for `r2 != 0` and `r1 != r2` (R80). -/
def divuqDatapath (r1 r2 : Nat) : Except ErrorCode Nat :=
  if r1 < 2 ^ 144 then
    if 2 ^ 224 ≤ r1 * 2 ^ 112 / r2 then .error .overflow else .ok (r1 * 2 ^ 112 / r2)
  else if 2 ^ 112 ≤ r1 / r2 then .error .overflow
  else .ok (divuqBits 112 r2 (r1 % r2) (r1 / r2 * 2 ^ 112))

end Sys2Proof.Machine
end

