-- ==== Sys2Proof/Machine/Strict.lean ====
section
/-! DEFINITION. The machine with the spec's model fault UNWRITTEN_READ (10_state.md R17, R22; 60_exceptions.md R89): it stops
where a register that nothing has written since reset is read, and otherwise it is `step` (log entry 2). -/

namespace Sys2Proof.Machine

/-- The first unwritten register of a list. -/
def State.firstUnwritten (s : State) (rs : List Reg) : Option Reg :=
  rs.find? (fun r => !s.isWritten r)

/-- The unwritten register an operation reads: an ISSUE of a legal word reads its sources, the lowest-numbered source field
first; an illegal word reads none (R89, 30_encoding.md R43); a host read of a register or of one of its limbs reads that
register (R17). -/
def unwrittenReadOf (op : HostOp) (s : State) : Option Reg :=
  match op with
  | .writeReg _ _ => none
  | .readReg r => s.firstUnwritten [r]
  | .writeLimb _ _ _ => none
  | .readLimb r k => if k < s.params.limbWidth.count then s.firstUnwritten [r] else none
  | .issue w =>
    match decodeWord w with
    | none => none
    | some i => s.firstUnwritten (sources i)
  | .readStatus => none
  | .writeStatus _ => none
  | .reset => none

/-- The unwritten register the next step reads, of this port's own host. -/
def State.unwrittenRead (s : State) : Option Reg :=
  match s.inbox with
  | [] => none
  | q :: _ => if q.host = s.host then unwrittenReadOf q.op s else none

/-- One step of the machine as R17 has it. -/
def strictStep (s : State) : Result :=
  match s.unwrittenRead with
  | some r => .fault (.unwrittenRead r)
  | none => step s

end Sys2Proof.Machine
end

