-- ==== Sys2Proof/Machine/Units.lean ====
section
/-! DEFINITION. A platform with several unit instances (20_memory.md R35, 60_exceptions.md R99): each has its own state and
port, and they share nothing. -/

namespace Sys2Proof.Machine

/-- The instances of a platform. -/
abbrev Units := List State

/-- `UNIT_COUNT` instances after power-on (R5: OPEN, so an argument). -/
def Units.reset (unitCount : Nat) : Units :=
  List.replicate unitCount State.reset

/-- The platform steps instance `k`; an instance that does not exist has no step, and the platform stays as it is. -/
def Units.step (k : Nat) (us : Units) : Host.Outcome Units Fault Refusal :=
  match us[k]? with
  | none => .next us
  | some s =>
    match Sys2Proof.Machine.step s with
    | .next t => .next (us.set k t)
    | .fault f => .fault f
    | .refused r => .refused r

end Sys2Proof.Machine
end

