-- ==== Sys2Proof/Safety.lean ====
section
/-! DEFINITION. The terms claims are made in: how an instruction or a host-port operation ends and what it leaves alone, what
it means that STATUS is consistent, and which runs read only registers that have been written. -/

namespace Sys2Proof.Machine

/-- Registers, written parts and STATUS apart, two states are the same: the port and the instance. -/
structure SamePort (s t : State) : Prop where
  position : t.position = s.position
  host     : t.host = s.host
  inbox    : t.inbox = s.inbox
  reply    : t.reply = s.reply
  params   : t.params = s.params

/-- Every register is as it was, its value and what of it has been written, but for those of `ds`. -/
def SameRegsBut (ds : List Reg) (s t : State) : Prop :=
  ∀ r, r ∉ ds → t.reg r = s.reg r ∧ t.parts r = s.parts r

/-- STATUS after an instruction with opcode `op` that completed without error (60_exceptions.md R91). -/
def StatusCompleted (op : Byte) (s t : State) : Prop :=
  t.status.err = .noError ∧ t.status.lastop = op ∧ t.status.sticky = s.status.sticky

/-- `t` is `s` after an instruction with opcode `op` that completed without error, its one destination `rd` now holding
the number `v` (10_state.md R16, R17; 60_exceptions.md R91). -/
structure Completed (op : Byte) (rd : Reg) (v : Nat) (s t : State) : Prop where
  result  : (t.reg rd).toNat = v
  written : t.isWritten rd = true
  regs    : SameRegsBut [rd] s t
  status  : StatusCompleted op s t
  port    : SamePort s t

/-- `t` is `s` after an instruction with opcode `op` that raised error `e`: STATUS alone has changed (60_exceptions.md R90,
R92). -/
structure Raised (op : Byte) (e : ErrorCode) (s t : State) : Prop where
  err    : t.status.err = e
  sticky : t.status.sticky = true
  lastop : t.status.lastop = op
  regs   : SameRegsBut [] s t
  port   : SamePort s t

/-- `s` has the host's operation `op` waiting first, and `t` is `s` with it taken off the port. -/
def Accepts (s : State) (op : HostOp) (t : State) : Prop :=
  ∃ rest, s.inbox = { host := s.host, op := op } :: rest ∧
    t = { s with inbox := rest, reply := .nothing }

/-- The word of the opcode map an instruction with these fields has, as a number (30_encoding.md R37, R38). -/
def EncodedAs (i : Instr) (op : Nat) (rd rs1 rs2 rs3 rd2 : Reg) : Prop :=
  (encodeWord i).toNat = op + rd.val * 2 ^ 8 + rs1.val * 2 ^ 12 + rs2.val * 2 ^ 16 + rs3.val * 2 ^ 20 + rd2.val * 2 ^ 24

/-- STATUS is consistent: it records no instruction yet, or an illegal word, or the completion of an instruction of the
opcode map with no error or one that R87 lists for it. -/
def StatusConsistent (s : State) : Prop :=
  (s.status.err = .noError ∧ s.status.lastop = 0#8) ∨
  s.status.err = .illegalOperation ∨
  ((∃ row ∈ opcodeMap, row.1 = s.status.lastop) ∧
    (s.status.err = .noError ∨ s.status.err ∈ errorsOf s.status.lastop))

/-- Two states agree on everything the spec gives a value: they differ at most in register bits that nothing has written
since reset (10_state.md R17, R20). -/
structure AgreeOnWritten (s t : State) : Prop where
  written  : t.written = s.written
  status   : t.status = s.status
  port     : SamePort s t
  regs     : ∀ r (b : Nat), b < 256 → (s.parts r).getLsbD (b / 32) = true →
    (t.reg r).getLsbD b = (s.reg r).getLsbD b

/-- The next `n` steps are ones the spec gives a result: none reads an unwritten register, none is refused. -/
def safeFor : Nat → State → Bool
  | 0, _ => true
  | n + 1, s =>
    match strictStep s with
    | .next t => safeFor n t
    | .fault _ => false
    | .refused _ => false

end Sys2Proof.Machine
end

