-- ==== Sys2Proof/Certificates/Slice0/Obligations.lean ====
section
/-! DEFINITION. The statements: what the numbered rules of spec/ say the unit does. A statement over a state holds for every
state, so for every value an unwritten register may hold (log entry 1). -/

open Sys2Proof
open Sys2Proof.Machine

/-! ### Encoding -/

/-- One word of every format and family, written out from the fields of R37 and the opcodes of R42 (95_test_vectors.md
2.1), decodes to its instruction. -/
def Obligations.SpecWordsDecode : Prop :=
  decodeWord 0x00032101#32 = some (.add 1 2 3) ∧
  decodeWord 0x05032104#32 = some (.mulw 1 5 2 3) ∧
  decodeWord 0x00002110#32 = some (.msb 1 2) ∧
  decodeWord 0x00002118#32 = some (.sqrt 1 2) ∧
  decodeWord 0x00432121#32 = some (.muldivup 1 2 3 4) ∧
  decodeWord 0x00002133#32 = some (.decode144 1 2) ∧
  decodeWord 0x00032135#32 = some (.muli 1 2 3) ∧
  decodeWord 0x0000EF3A#32 = some (.fpsqrt 15 14)

/-- Decoding an instruction's word gives the instruction back: no bit of any operand is dropped (R37, R42). -/
def Obligations.DecodeOfEncodedInstruction : Prop :=
  ∀ i : Instr, i.wf = true → decodeWord (encodeWord i) = some i

/-- Every legal word is the encoding of exactly the instruction it decodes to, and that instruction is well formed: no two
words share a meaning (R38, R43). -/
def Obligations.EncodeOfDecodedWord : Prop :=
  ∀ (w : InstrWord) (i : Instr), decodeWord w = some i → i.wf = true ∧ encodeWord i = w

/-- The decoder accepts a word exactly when R43's three conditions hold: an opcode of the map, every unused field zero under
the format's mask, and MULW's two destinations different. -/
def Obligations.DecoderAcceptsLegalWordsOnly : Prop :=
  ∀ w : InstrWord, (decodeWord w).isSome = true ↔
    ∃ row ∈ opcodeMap, w &&& row.2.mask = row.1.zeroExtend 32 ∧
      ¬(row.1 = 0x04#8 ∧ regField w 8 = regField w 24)

/-- Issuing a word the legality rule rejects raises ILLEGAL_OPERATION: STATUS records it with the word's opcode byte, and no
register is written (R43); every opcode R44 lists as reserved is such a word. -/
def Obligations.IllegalWordRaisesIllegalOperation : Prop :=
  (∀ (s u : State) (w : InstrWord), Accepts s (.issue w) u → legal w = false →
    ∃ t, step s = .next t ∧ Raised (opcodeOf w) .illegalOperation { u with position := u.position + 1 } t) ∧
  (∀ w : InstrWord,
    (field w 0 8 = 0x00 ∨ (0x08 ≤ field w 0 8 ∧ field w 0 8 ≤ 0x0F) ∨ (0x12 ≤ field w 0 8 ∧ field w 0 8 ≤ 0x17) ∨
      (0x19 ≤ field w 0 8 ∧ field w 0 8 ≤ 0x1F) ∨ (0x22 ≤ field w 0 8 ∧ field w 0 8 ≤ 0x2F) ∨
      (0x3B ≤ field w 0 8 ∧ field w 0 8 ≤ 0x3F) ∨ 0x40 ≤ field w 0 8) →
    legal w = false)

/-- An instruction word moved as bytes is little-endian: byte j carries bits 8j+7 to 8j, byte 0 is the opcode, the four bytes
are the word again, and the decoder on bytes reads the instruction and leaves the rest (R26). -/
def Obligations.InstructionBytesLittleEndian : Prop :=
  (∀ w : InstrWord, ∃ b0 b1 b2 b3, bytesOfWord w = [b0, b1, b2, b3] ∧ b0 = opcodeOf w ∧
    (∀ j : Nat, j < 8 → b0.getLsbD j = w.getLsbD j ∧ b1.getLsbD j = w.getLsbD (8 + j) ∧
      b2.getLsbD j = w.getLsbD (16 + j) ∧ b3.getLsbD j = w.getLsbD (24 + j)) ∧
    wordOfBytes b0 b1 b2 b3 = w) ∧
  (∀ (i : Instr) (rest : List Byte), i.wf = true → decodeBytes (encodeBytes i ++ rest) = some (i, rest))

/-! ### The host port and STATUS -/

/-- A step whose oldest operation is the ISSUE of a legal word runs the word's instruction, on the state with the operation
taken off the port and the issue index advanced (R15, R22). -/
def Obligations.StepRunsDecodedInstruction : Prop :=
  ∀ (s u : State) (w : InstrWord) (i : Instr), Accepts s (.issue w) u → decodeWord w = some i →
    step s = exec i { u with position := u.position + 1 }

/-- With no operation waiting the unit is idle; and a step that changes a register or STATUS served an ISSUE, a host-port
write or RESET (R101). -/
def Obligations.OnlyWritesIssuesAndResetChangeTheUnit : Prop :=
  (∀ s : State, s.inbox = [] → step s = .next s) ∧
  (∀ s t : State, step s = .next t → t.regs ≠ s.regs ∨ t.written ≠ s.written ∨ t.status ≠ s.status →
    ∃ q rest, s.inbox = q :: rest ∧
      ((∃ w, q.op = .issue w) ∨ (∃ r v, q.op = .writeReg r v) ∨ (∃ r k v, q.op = .writeLimb r k v) ∨
        (∃ v, q.op = .writeStatus v) ∨ q.op = .reset))

/-- WRITE_REG writes the register, which is no longer unwritten, and returns nothing; READ_REG returns the register's value
and changes nothing (R19). -/
def Obligations.HostWritesAndReadsRegisters : Prop :=
  (∀ (s u : State) (r : Reg) (v : Word), Accepts s (.writeReg r v) u →
    ∃ t, step s = .next t ∧ t.reg r = v ∧ t.isWritten r = true ∧ SameRegsBut [r] u t ∧ t.status = u.status ∧
      SamePort u t) ∧
  (∀ (s u : State) (r : Reg), Accepts s (.readReg r) u → step s = .next { u with reply := .word (s.reg r) })

/-- READ_STATUS returns STATUS and changes nothing: ERR in bits 2:0, STICKY in bit 7, LASTOP in bits 15:8, bits 6:3 and 31:16
read as 0. The codes in ERR are 0 for NONE, 1 for ZERO_INPUT, 2 for DIVISION_BY_ZERO, 3 for OVERFLOW, 4 for INVALID_DOMAIN
and 5 for ILLEGAL_OPERATION, so never 6 or 7 (R18, R87). -/
def Obligations.ReadStatusReturnsFields : Prop :=
  (∀ s u : State, Accepts s .readStatus u →
    ∃ v : BitVec 32, step s = .next { u with reply := .status v } ∧
      (v.extractLsb' 0 3).toNat = s.status.err.code ∧ s.status.err.code ≤ 5 ∧
      v.extractLsb' 3 4 = 0#4 ∧ v.getLsbD 7 = s.status.sticky ∧
      v.extractLsb' 8 8 = s.status.lastop ∧ v.extractLsb' 16 16 = 0#16) ∧
  ErrorCode.noError.code = 0 ∧ ErrorCode.zeroInput.code = 1 ∧ ErrorCode.divisionByZero.code = 2 ∧
  ErrorCode.overflow.code = 3 ∧ ErrorCode.invalidDomain.code = 4 ∧ ErrorCode.illegalOperation.code = 5

/-- WRITE_STATUS clears STICKY when bit 7 of the value is 1 and otherwise leaves it; ERR, LASTOP and everything else stay
(R21). -/
def Obligations.WriteStatusClearsSticky : Prop :=
  ∀ (s u : State) (v : BitVec 32), Accepts s (.writeStatus v) u →
    ∃ t, step s = .next t ∧ t.status.sticky = (if v.getLsbD 7 then false else s.status.sticky) ∧
      t.status.err = s.status.err ∧ t.status.lastop = s.status.lastop ∧ SameRegsBut [] u t ∧ SamePort u t

/-- After power-on and after RESET(), STATUS reads 0 and every register is unwritten, no part of it written (R104); that RESET
leaves the port, the issue index and the parameters is the model's choice (log entry 6). -/
def Obligations.ResetClearsStatusAndUnwritesRegisters : Prop :=
  (State.reset.status.word = 0#32 ∧ ∀ r, State.reset.isWritten r = false ∧ State.reset.parts r = 0#8) ∧
  (∀ s u : State, Accepts s .reset u →
    ∃ t, step s = .next t ∧ t.status.word = 0#32 ∧ (∀ r, t.isWritten r = false ∧ t.parts r = 0#8) ∧ SamePort u t)

/-- A limb transfer whose limb index is not below `256 / w` has no step; one whose index is in range has one (R28). -/
def Obligations.LimbIndexOutOfRangeHasNoStep : Prop :=
  ∀ (s u : State) (r : Reg) (k : Nat) (v : Word),
    (Accepts s (.writeLimb r k v) u →
      (256 ≤ s.params.limbWidth.bits * k → step s = .refused (.limbIndexOutOfRange r k)) ∧
      (s.params.limbWidth.bits * k < 256 → ∃ t, step s = .next t)) ∧
    (Accepts s (.readLimb r k) u →
      (256 ≤ s.params.limbWidth.bits * k → step s = .refused (.limbIndexOutOfRange r k)) ∧
      (s.params.limbWidth.bits * k < 256 → ∃ t, step s = .next t))

/-- Stepping one instance leaves every other instance, and their number, as they were; and a request of a host other than
the port's own is refused (R35). -/
def Obligations.InstancesShareNothing : Prop :=
  (∀ (k : Nat) (us vs : Units), Units.step k us = .next vs →
    vs.length = us.length ∧ (∀ j, j ≠ k → vs[j]? = us[j]?) ∧
    (∀ s, us[k]? = some s → ∃ t, step s = .next t ∧ vs[k]? = some t)) ∧
  (∀ (s : State) (q : Request) (rest : List Request), s.inbox = q :: rest → q.host ≠ s.host →
    step s = .refused (.secondHost q.host))

/-- One limb transfer: a write changes exactly bits w*k+w-1 to w*k of the register, to the low w bits of the value, and a
read returns those bits, zero-extended; nothing else changes but which parts of the register have been written (R25; that a
limb's bits change before the other limbs arrive is log entry 3). -/
def Obligations.LimbTransferMovesItsBits : Prop :=
  ∀ (s u : State) (r : Reg) (k : Nat) (v : Word), s.params.limbWidth.bits * k < 256 →
    (Accepts s (.writeLimb r k v) u →
      ∃ t, step s = .next t ∧
        (∀ b, b < 256 → (t.reg r).getLsbD b =
          (if s.params.limbWidth.bits * k ≤ b ∧ b < s.params.limbWidth.bits * k + s.params.limbWidth.bits then
            v.getLsbD (b - s.params.limbWidth.bits * k)
          else (s.reg r).getLsbD b)) ∧
        SameRegsBut [r] u t ∧ t.status = s.status ∧ SamePort u t) ∧
    (Accepts s (.readLimb r k) u →
      ∃ x : Word, step s = .next { u with reply := .limb x } ∧
        x.toNat = (s.reg r).toNat / 2 ^ (s.params.limbWidth.bits * k) % 2 ^ s.params.limbWidth.bits)

/-- The limbs of a value written in any order, with repeats: the register counts as written exactly when every limb has been
transferred, and then it holds the value; no other register and no STATUS bit changes (R20, R25). -/
def Obligations.LimbsInAnyOrderWriteTheRegister : Prop :=
  ∀ (s : State) (r : Reg) (v : Word) (ks : List Nat),
    (∀ k ∈ ks, k < s.params.limbWidth.count) → s.parts r = 0#8 →
    s.inbox = ks.map (fun k => { host := s.host, op := .writeLimb r k (getLimb s.params.limbWidth k v) }) →
    ∃ t : State, Host.Core.run Sys2Proof.core ks.length s = .next t ∧
      (t.isWritten r = true ↔ ∀ k, k < s.params.limbWidth.count → k ∈ ks) ∧
      ((∀ k, k < s.params.limbWidth.count → k ∈ ks) → t.reg r = v) ∧
      SameRegsBut [r] s t ∧ t.status = s.status ∧ t.inbox = []

/-! ### Word256 -/

/-- ADD: the exact sum, OVERFLOW when it does not fit (R51). -/
def Obligations.AddResult : Prop :=
  ∀ (rd rs1 rs2 : Reg) (s : State),
    EncodedAs (.add rd rs1 rs2) 0x01 rd rs1 rs2 0 0 ∧
    ((s.reg rs1).toNat + (s.reg rs2).toNat < 2 ^ 256 →
      ∃ t, exec (.add rd rs1 rs2) s = .next t ∧
        Completed 0x01#8 rd ((s.reg rs1).toNat + (s.reg rs2).toNat) s t) ∧
    (2 ^ 256 ≤ (s.reg rs1).toNat + (s.reg rs2).toNat →
      ∃ t, exec (.add rd rs1 rs2) s = .next t ∧ Raised 0x01#8 .overflow s t)

/-- SUB: the exact difference, OVERFLOW when it is negative (R52). -/
def Obligations.SubResult : Prop :=
  ∀ (rd rs1 rs2 : Reg) (s : State),
    EncodedAs (.sub rd rs1 rs2) 0x02 rd rs1 rs2 0 0 ∧
    ((s.reg rs2).toNat ≤ (s.reg rs1).toNat →
      ∃ t, exec (.sub rd rs1 rs2) s = .next t ∧
        Completed 0x02#8 rd ((s.reg rs1).toNat - (s.reg rs2).toNat) s t) ∧
    ((s.reg rs1).toNat < (s.reg rs2).toNat →
      ∃ t, exec (.sub rd rs1 rs2) s = .next t ∧ Raised 0x02#8 .overflow s t)

/-- MUL: the exact product, OVERFLOW when it does not fit (R53). -/
def Obligations.MulResult : Prop :=
  ∀ (rd rs1 rs2 : Reg) (s : State),
    EncodedAs (.mul rd rs1 rs2) 0x03 rd rs1 rs2 0 0 ∧
    ((s.reg rs1).toNat * (s.reg rs2).toNat < 2 ^ 256 →
      ∃ t, exec (.mul rd rs1 rs2) s = .next t ∧
        Completed 0x03#8 rd ((s.reg rs1).toNat * (s.reg rs2).toNat) s t) ∧
    (2 ^ 256 ≤ (s.reg rs1).toNat * (s.reg rs2).toNat →
      ∃ t, exec (.mul rd rs1 rs2) s = .next t ∧ Raised 0x03#8 .overflow s t)

/-- MULW: the two destinations together hold the exact product of the sources as they were, whatever registers they are;
there is no arithmetic error, and rd = rd2 is ILLEGAL_OPERATION (R54). -/
def Obligations.MulwResult : Prop :=
  ∀ (rd rd2 rs1 rs2 : Reg) (s : State),
    EncodedAs (.mulw rd rd2 rs1 rs2) 0x04 rd rs1 rs2 0 rd2 ∧
    (rd ≠ rd2 →
      ∃ t, exec (.mulw rd rd2 rs1 rs2) s = .next t ∧
        (t.reg rd2).toNat * 2 ^ 256 + (t.reg rd).toNat = (s.reg rs1).toNat * (s.reg rs2).toNat ∧
        t.isWritten rd = true ∧ t.isWritten rd2 = true ∧ SameRegsBut [rd, rd2] s t ∧ StatusCompleted 0x04#8 s t ∧
        SamePort s t) ∧
    (rd = rd2 → ∃ t, exec (.mulw rd rd2 rs1 rs2) s = .next t ∧ Raised 0x04#8 .illegalOperation s t)

/-- SHL: `(a * 2^n) mod 2^256` for every 256-bit shift amount, 0 from 256 on; no error (R55). -/
def Obligations.ShlResult : Prop :=
  ∀ (rd rs1 rs2 : Reg) (s : State),
    EncodedAs (.shl rd rs1 rs2) 0x05 rd rs1 rs2 0 0 ∧
    ∃ t, exec (.shl rd rs1 rs2) s = .next t ∧
      Completed 0x05#8 rd ((s.reg rs1).toNat * 2 ^ (s.reg rs2).toNat % 2 ^ 256) s t

/-- SHR: `a div 2^n` for every 256-bit shift amount, 0 from 256 on; no error (R56). -/
def Obligations.ShrResult : Prop :=
  ∀ (rd rs1 rs2 : Reg) (s : State),
    EncodedAs (.shr rd rs1 rs2) 0x06 rd rs1 rs2 0 0 ∧
    ∃ t, exec (.shr rd rs1 rs2) s = .next t ∧
      Completed 0x06#8 rd ((s.reg rs1).toNat / 2 ^ (s.reg rs2).toNat) s t

/-- AND: every bit of the result is the and of the sources' bits; no error (R57). -/
def Obligations.AndResult : Prop :=
  ∀ (rd rs1 rs2 : Reg) (s : State),
    EncodedAs (.and rd rs1 rs2) 0x07 rd rs1 rs2 0 0 ∧
    ∃ t v, exec (.and rd rs1 rs2) s = .next t ∧ Completed 0x07#8 rd v s t ∧
      ∀ b : Nat, v.testBit b = ((s.reg rs1).toNat.testBit b && (s.reg rs2).toNat.testBit b)

/-! ### BitScanner and IntegerSqrt -/

/-- MSB: the index `i` with `2^i <= v < 2^(i+1)`, ZERO_INPUT on zero (R61). -/
def Obligations.MsbResult : Prop :=
  ∀ (rd rs1 : Reg) (s : State),
    EncodedAs (.msb rd rs1) 0x10 rd rs1 0 0 0 ∧
    ((s.reg rs1).toNat ≠ 0 →
      ∃ t i, exec (.msb rd rs1) s = .next t ∧ Completed 0x10#8 rd i s t ∧ i ≤ 255 ∧
        2 ^ i ≤ (s.reg rs1).toNat ∧ (s.reg rs1).toNat < 2 ^ (i + 1)) ∧
    ((s.reg rs1).toNat = 0 → ∃ t, exec (.msb rd rs1) s = .next t ∧ Raised 0x10#8 .zeroInput s t)

/-- LSB: the greatest `i` such that `2^i` divides the operand, ZERO_INPUT on zero (R62). -/
def Obligations.LsbResult : Prop :=
  ∀ (rd rs1 : Reg) (s : State),
    EncodedAs (.lsb rd rs1) 0x11 rd rs1 0 0 0 ∧
    ((s.reg rs1).toNat ≠ 0 →
      ∃ t i, exec (.lsb rd rs1) s = .next t ∧ Completed 0x11#8 rd i s t ∧ i ≤ 255 ∧
        2 ^ i ∣ (s.reg rs1).toNat ∧ ∀ j, 2 ^ j ∣ (s.reg rs1).toNat → j ≤ i) ∧
    ((s.reg rs1).toNat = 0 → ∃ t, exec (.lsb rd rs1) s = .next t ∧ Raised 0x11#8 .zeroInput s t)

/-- SQRT: the `k` with `k*k <= v < (k+1)*(k+1)`, for every word; no error (R65). -/
def Obligations.SqrtResult : Prop :=
  ∀ (rd rs1 : Reg) (s : State),
    EncodedAs (.sqrt rd rs1) 0x18 rd rs1 0 0 0 ∧
    ∃ t k, exec (.sqrt rd rs1) s = .next t ∧ Completed 0x18#8 rd k s t ∧ k ≤ 2 ^ 128 - 1 ∧
      k * k ≤ (s.reg rs1).toNat ∧ (s.reg rs1).toNat < (k + 1) * (k + 1)

/-! ### FullPrecisionMulDiv -/

/-- MULDIV: the exact floor of `a*b/d`; DIVISION_BY_ZERO on a zero divisor, tested first, OVERFLOW when the quotient does not
fit (R68). -/
def Obligations.MuldivResult : Prop :=
  ∀ (rd rs1 rs2 rs3 : Reg) (s : State),
    EncodedAs (.muldiv rd rs1 rs2 rs3) 0x20 rd rs1 rs2 rs3 0 ∧
    ((s.reg rs3).toNat = 0 →
      ∃ t, exec (.muldiv rd rs1 rs2 rs3) s = .next t ∧ Raised 0x20#8 .divisionByZero s t) ∧
    ((s.reg rs3).toNat ≠ 0 → (s.reg rs1).toNat * (s.reg rs2).toNat / (s.reg rs3).toNat < 2 ^ 256 →
      ∃ t, exec (.muldiv rd rs1 rs2 rs3) s = .next t ∧
        Completed 0x20#8 rd ((s.reg rs1).toNat * (s.reg rs2).toNat / (s.reg rs3).toNat) s t) ∧
    ((s.reg rs3).toNat ≠ 0 → 2 ^ 256 ≤ (s.reg rs1).toNat * (s.reg rs2).toNat / (s.reg rs3).toNat →
      ∃ t, exec (.muldiv rd rs1 rs2 rs3) s = .next t ∧ Raised 0x20#8 .overflow s t)

/-- MULDIVUP: the least `q` with `a*b <= q*d`, which is `a*b/d` rounded up; DIVISION_BY_ZERO on a zero divisor, tested first,
OVERFLOW when the rounded quotient does not fit (R69). -/
def Obligations.MuldivupResult : Prop :=
  ∀ (rd rs1 rs2 rs3 : Reg) (s : State),
    EncodedAs (.muldivup rd rs1 rs2 rs3) 0x21 rd rs1 rs2 rs3 0 ∧
    ((s.reg rs3).toNat = 0 →
      ∃ t, exec (.muldivup rd rs1 rs2 rs3) s = .next t ∧ Raised 0x21#8 .divisionByZero s t) ∧
    ((s.reg rs3).toNat ≠ 0 →
      ∃ t q, exec (.muldivup rd rs1 rs2 rs3) s = .next t ∧
        (s.reg rs1).toNat * (s.reg rs2).toNat ≤ q * (s.reg rs3).toNat ∧
        (∀ q', (s.reg rs1).toNat * (s.reg rs2).toNat ≤ q' * (s.reg rs3).toNat → q ≤ q') ∧
        (q < 2 ^ 256 → Completed 0x21#8 rd q s t) ∧ (2 ^ 256 ≤ q → Raised 0x21#8 .overflow s t))

/-- For a non-zero divisor MULDIV overflows exactly when the high half of the product, as MULW writes it, is at least the
divisor (R71). -/
def Obligations.MuldivOverflowsWhenHighHalfReachesDivisor : Prop :=
  ∀ (lo hi rd rs1 rs2 rs3 : Reg) (s : State), lo ≠ hi → (s.reg rs3).toNat ≠ 0 →
    ∃ t u, exec (.mulw lo hi rs1 rs2) s = .next t ∧ exec (.muldiv rd rs1 rs2 rs3) s = .next u ∧
      (u.status.err = .overflow ↔ (s.reg rs3).toNat ≤ (t.reg hi).toNat) ∧
      (u.status.err = .noError ↔ (t.reg hi).toNat < (s.reg rs3).toNat)

/-! ### FixedPoint -/

/-- ENCODE: `v * S` below `2^112`, INVALID_DOMAIN from there on (R72). -/
def Obligations.EncodeResult : Prop :=
  ∀ (rd rs1 : Reg) (s : State),
    EncodedAs (.encode rd rs1) 0x30 rd rs1 0 0 0 ∧
    ((s.reg rs1).toNat < 2 ^ 112 →
      ∃ t, exec (.encode rd rs1) s = .next t ∧ Completed 0x30#8 rd ((s.reg rs1).toNat * 2 ^ 112) s t) ∧
    (2 ^ 112 ≤ (s.reg rs1).toNat → ∃ t, exec (.encode rd rs1) s = .next t ∧ Raised 0x30#8 .invalidDomain s t)

/-- ENCODE144: `v * S` below `2^144`, INVALID_DOMAIN from there on (R73). -/
def Obligations.Encode144Result : Prop :=
  ∀ (rd rs1 : Reg) (s : State),
    EncodedAs (.encode144 rd rs1) 0x31 rd rs1 0 0 0 ∧
    ((s.reg rs1).toNat < 2 ^ 144 →
      ∃ t, exec (.encode144 rd rs1) s = .next t ∧ Completed 0x31#8 rd ((s.reg rs1).toNat * 2 ^ 112) s t) ∧
    (2 ^ 144 ≤ (s.reg rs1).toNat → ∃ t, exec (.encode144 rd rs1) s = .next t ∧ Raised 0x31#8 .invalidDomain s t)

/-- DECODE: `r div S` below `2^224`, OVERFLOW from there on (R74). -/
def Obligations.DecodeResult : Prop :=
  ∀ (rd rs1 : Reg) (s : State),
    EncodedAs (.decode rd rs1) 0x32 rd rs1 0 0 0 ∧
    ((s.reg rs1).toNat < 2 ^ 224 →
      ∃ t, exec (.decode rd rs1) s = .next t ∧ Completed 0x32#8 rd ((s.reg rs1).toNat / 2 ^ 112) s t) ∧
    (2 ^ 224 ≤ (s.reg rs1).toNat → ∃ t, exec (.decode rd rs1) s = .next t ∧ Raised 0x32#8 .overflow s t)

/-- DECODE144: `r div S` for every raw; no error (R75). -/
def Obligations.Decode144Result : Prop :=
  ∀ (rd rs1 : Reg) (s : State),
    EncodedAs (.decode144 rd rs1) 0x33 rd rs1 0 0 0 ∧
    ∃ t, exec (.decode144 rd rs1) s = .next t ∧ Completed 0x33#8 rd ((s.reg rs1).toNat / 2 ^ 112) s t

/-- DECODE of ENCODE: for a value below `2^112`, ENCODE into any register and DECODE of that register into any register give
the value back (R74). -/
def Obligations.DecodeUndoesEncode : Prop :=
  ∀ (a b c : Reg) (s : State), (s.reg a).toNat < 2 ^ 112 →
    ∃ t u, exec (.encode b a) s = .next t ∧ exec (.decode c b) t = .next u ∧ u.reg c = s.reg a ∧
      u.status.err = .noError ∧ u.status.sticky = s.status.sticky

/-- FPMUL: the exact product of raw and unsigned integer, OVERFLOW when it does not fit (R76). -/
def Obligations.FpmulResult : Prop :=
  ∀ (rd rs1 rs2 : Reg) (s : State),
    EncodedAs (.fpmul rd rs1 rs2) 0x34 rd rs1 rs2 0 0 ∧
    ((s.reg rs1).toNat * (s.reg rs2).toNat < 2 ^ 256 →
      ∃ t, exec (.fpmul rd rs1 rs2) s = .next t ∧
        Completed 0x34#8 rd ((s.reg rs1).toNat * (s.reg rs2).toNat) s t) ∧
    (2 ^ 256 ≤ (s.reg rs1).toNat * (s.reg rs2).toNat →
      ∃ t, exec (.fpmul rd rs1 rs2) s = .next t ∧ Raised 0x34#8 .overflow s t)

/-- MULI under both modes, `y` being the second operand's two's-complement value. FLOOR: `z` is the greatest integer with
`z * S <= r * y`. TRUNC: `z` is `y`'s sign times the floor of `r * |y| / S`. The register gets `z mod 2^256`; OVERFLOW when `z`
is outside the mode's signed range (R77; TRUNC and its range are the spec's general-knowledge item G4). -/
def Obligations.MuliResult : Prop :=
  ∀ (rd rs1 rs2 : Reg) (s : State) (y : Int),
    -(2 ^ 255) ≤ y → y < 2 ^ 255 → y % 2 ^ 256 = (s.reg rs2).toNat →
    EncodedAs (.muli rd rs1 rs2) 0x35 rd rs1 rs2 0 0 ∧
    ∃ t z, exec (.muli rd rs1 rs2) s = .next t ∧
      (s.params.muliMode = .floor →
        z * 2 ^ 112 ≤ (s.reg rs1).toNat * y ∧ (s.reg rs1).toNat * y < (z + 1) * 2 ^ 112 ∧
        (-(2 ^ 255) ≤ z ∧ z ≤ 2 ^ 255 - 1 → Completed 0x35#8 rd (z % 2 ^ 256).toNat s t) ∧
        (z < -(2 ^ 255) ∨ 2 ^ 255 - 1 < z → Raised 0x35#8 .overflow s t)) ∧
      (s.params.muliMode = .trunc →
        z = y.sign * (((s.reg rs1).toNat * y.natAbs / 2 ^ 112 : Nat) : Int) ∧
        (-(2 ^ 255 - 1) ≤ z ∧ z ≤ 2 ^ 255 - 1 → Completed 0x35#8 rd (z % 2 ^ 256).toNat s t) ∧
        (z < -(2 ^ 255 - 1) ∨ 2 ^ 255 - 1 < z → Raised 0x35#8 .overflow s t))

/-- MULUQ: the four-term expansion is `floor(r1 * r2 / S)`, and OVERFLOW is raised exactly when that is not below
MULUQ_LIMIT, for both limits (R78's derived equality; the limit 2^224 is the spec's general-knowledge item G5). -/
def Obligations.MuluqResult : Prop :=
  ∀ (rd rs1 rs2 : Reg) (s : State),
    EncodedAs (.muluq rd rs1 rs2) 0x36 rd rs1 rs2 0 0 ∧
    ((s.reg rs1).toNat * (s.reg rs2).toNat / 2 ^ 112 < s.params.muluqLimit.bound →
      ∃ t, exec (.muluq rd rs1 rs2) s = .next t ∧
        Completed 0x36#8 rd ((s.reg rs1).toNat * (s.reg rs2).toNat / 2 ^ 112) s t) ∧
    (s.params.muluqLimit.bound ≤ (s.reg rs1).toNat * (s.reg rs2).toNat / 2 ^ 112 →
      ∃ t, exec (.muluq rd rs1 rs2) s = .next t ∧ Raised 0x36#8 .overflow s t)

/-- DIVUQ: the exact floor of `r1 * S / r2`, equal operands giving S; DIVISION_BY_ZERO on a zero divisor, tested first,
OVERFLOW from `2^224` on (R79). -/
def Obligations.DivuqResult : Prop :=
  ∀ (rd rs1 rs2 : Reg) (s : State),
    EncodedAs (.divuq rd rs1 rs2) 0x37 rd rs1 rs2 0 0 ∧
    ((s.reg rs2).toNat = 0 → ∃ t, exec (.divuq rd rs1 rs2) s = .next t ∧ Raised 0x37#8 .divisionByZero s t) ∧
    ((s.reg rs2).toNat ≠ 0 → (s.reg rs1).toNat = (s.reg rs2).toNat →
      ∃ t, exec (.divuq rd rs1 rs2) s = .next t ∧ Completed 0x37#8 rd (2 ^ 112) s t) ∧
    ((s.reg rs2).toNat ≠ 0 → (s.reg rs1).toNat * 2 ^ 112 / (s.reg rs2).toNat < 2 ^ 224 →
      ∃ t, exec (.divuq rd rs1 rs2) s = .next t ∧
        Completed 0x37#8 rd ((s.reg rs1).toNat * 2 ^ 112 / (s.reg rs2).toNat) s t) ∧
    ((s.reg rs2).toNat ≠ 0 → 2 ^ 224 ≤ (s.reg rs1).toNat * 2 ^ 112 / (s.reg rs2).toNat →
      ∃ t, exec (.divuq rd rs1 rs2) s = .next t ∧ Raised 0x37#8 .overflow s t)

/-- FRACTION: the exact floor of `n * S / d`, 0 for `n = 0`; DIVISION_BY_ZERO on a zero divisor, tested first, OVERFLOW from
FRACTION_LIMIT on, for both limits (R81; the limit 2^224 is the spec's general-knowledge item G6). -/
def Obligations.FractionResult : Prop :=
  ∀ (rd rs1 rs2 : Reg) (s : State),
    EncodedAs (.fraction rd rs1 rs2) 0x38 rd rs1 rs2 0 0 ∧
    ((s.reg rs2).toNat = 0 → ∃ t, exec (.fraction rd rs1 rs2) s = .next t ∧ Raised 0x38#8 .divisionByZero s t) ∧
    ((s.reg rs2).toNat ≠ 0 → (s.reg rs1).toNat = 0 →
      ∃ t, exec (.fraction rd rs1 rs2) s = .next t ∧ Completed 0x38#8 rd 0 s t) ∧
    ((s.reg rs2).toNat ≠ 0 → (s.reg rs1).toNat * 2 ^ 112 / (s.reg rs2).toNat < s.params.fractionLimit.bound →
      ∃ t, exec (.fraction rd rs1 rs2) s = .next t ∧
        Completed 0x38#8 rd ((s.reg rs1).toNat * 2 ^ 112 / (s.reg rs2).toNat) s t) ∧
    ((s.reg rs2).toNat ≠ 0 → s.params.fractionLimit.bound ≤ (s.reg rs1).toNat * 2 ^ 112 / (s.reg rs2).toNat →
      ∃ t, exec (.fraction rd rs1 rs2) s = .next t ∧ Raised 0x38#8 .overflow s t)

/-- RECIP: `2^224 div r`; DIVISION_BY_ZERO on 0, OVERFLOW on 1 (R82). -/
def Obligations.RecipResult : Prop :=
  ∀ (rd rs1 : Reg) (s : State),
    EncodedAs (.recip rd rs1) 0x39 rd rs1 0 0 0 ∧
    ((s.reg rs1).toNat = 0 → ∃ t, exec (.recip rd rs1) s = .next t ∧ Raised 0x39#8 .divisionByZero s t) ∧
    ((s.reg rs1).toNat = 1 → ∃ t, exec (.recip rd rs1) s = .next t ∧ Raised 0x39#8 .overflow s t) ∧
    (2 ≤ (s.reg rs1).toNat →
      ∃ t, exec (.recip rd rs1) s = .next t ∧ Completed 0x39#8 rd (2 ^ 224 / (s.reg rs1).toNat) s t)

/-- FPSQRT below `2^144`: the exact floor of the root of `r * S`. From `2^144` on: with the default FPSQRT_LARGE the root of
`r * 2^s` scaled back, `s` the leading zero count rounded down to even; with FPSQRT_LARGE left open some value. It has no
error (R83; the default function is the spec's general-knowledge item G3, log entry 9). -/
def Obligations.FpsqrtResult : Prop :=
  ∀ (rd rs1 : Reg) (s : State),
    EncodedAs (.fpsqrt rd rs1) 0x3A rd rs1 0 0 0 ∧
    ((s.reg rs1).toNat < 2 ^ 144 →
      ∃ t k, exec (.fpsqrt rd rs1) s = .next t ∧ Completed 0x3A#8 rd k s t ∧
        k * k ≤ (s.reg rs1).toNat * 2 ^ 112 ∧ (s.reg rs1).toNat * 2 ^ 112 < (k + 1) * (k + 1)) ∧
    (2 ^ 144 ≤ (s.reg rs1).toNat → s.params.fpsqrtLarge = .generalKnowledge →
      ∃ t i e k, exec (.fpsqrt rd rs1) s = .next t ∧ Completed 0x3A#8 rd (k * 2 ^ ((112 - e) / 2)) s t ∧
        2 ^ i ≤ (s.reg rs1).toNat ∧ (s.reg rs1).toNat < 2 ^ (i + 1) ∧ e = 255 - i - (255 - i) % 2 ∧
        k * k ≤ (s.reg rs1).toNat * 2 ^ e ∧ (s.reg rs1).toNat * 2 ^ e < (k + 1) * (k + 1)) ∧
    (2 ^ 144 ≤ (s.reg rs1).toNat → s.params.fpsqrtLarge = .leftOpen →
      ∃ t v, exec (.fpsqrt rd rs1) s = .next t ∧ Completed 0x3A#8 rd v s t)

/-- FPSQRT's precision ceiling with the default FPSQRT_LARGE: from `2^144` on the result is at most the exact root of `r * S`
and less than `2^t` below it, `t = (112 - s) / 2` between 1 and 56, and its low `t` bits are 0 (R83's derived bound; the
default function is the spec's general-knowledge item G3, log entry 9). -/
def Obligations.FpsqrtPrecisionCeiling : Prop :=
  ∀ (rd rs1 : Reg) (s : State), 2 ^ 144 ≤ (s.reg rs1).toNat → s.params.fpsqrtLarge = .generalKnowledge →
    ∃ t i e, exec (.fpsqrt rd rs1) s = .next t ∧ t.status.err = .noError ∧
      2 ^ i ≤ (s.reg rs1).toNat ∧ (s.reg rs1).toNat < 2 ^ (i + 1) ∧ e = 255 - i - (255 - i) % 2 ∧
      1 ≤ (112 - e) / 2 ∧ (112 - e) / 2 ≤ 56 ∧ 2 ^ ((112 - e) / 2) ∣ (t.reg rd).toNat ∧
      ∃ k, k * k ≤ (s.reg rs1).toNat * 2 ^ 112 ∧ (s.reg rs1).toNat * 2 ^ 112 < (k + 1) * (k + 1) ∧
        (t.reg rd).toNat ≤ k ∧ k < (t.reg rd).toNat + 2 ^ ((112 - e) / 2)

/-- The result bounds of the FixedPoint instructions that succeed (R85; MULI's bound is that of any register; FPSQRT's is that
of the default FPSQRT_LARGE, the spec's general-knowledge item G3, log entry 9). -/
def Obligations.FixedPointResultBounds : Prop :=
  ∀ (rd rs1 rs2 : Reg) (s t : State), t.status.err = .noError →
    (exec (.encode rd rs1) s = .next t → (t.reg rd).toNat < 2 ^ 224) ∧
    (exec (.decode rd rs1) s = .next t → (t.reg rd).toNat < 2 ^ 112) ∧
    (exec (.decode144 rd rs1) s = .next t → (t.reg rd).toNat < 2 ^ 144) ∧
    (exec (.muluq rd rs1 rs2) s = .next t → (t.reg rd).toNat < s.params.muluqLimit.bound) ∧
    (exec (.divuq rd rs1 rs2) s = .next t → (t.reg rd).toNat < 2 ^ 224) ∧
    (exec (.fraction rd rs1 rs2) s = .next t → (t.reg rd).toNat < s.params.fractionLimit.bound) ∧
    (exec (.recip rd rs1) s = .next t → (t.reg rd).toNat ≤ 2 ^ 223) ∧
    (exec (.fpsqrt rd rs1) s = .next t → s.params.fpsqrtLarge = .generalKnowledge → (t.reg rd).toNat < 2 ^ 184)

/-! ### The pseudo-instructions -/

/-- MOV copies a register and ZERO clears one, whatever register the destination is (R46). -/
def Obligations.PseudoInstructionsExpand : Prop :=
  ∀ (rd rs : Reg) (s : State),
    pseudoMov rd rs = .and rd rs rs ∧ pseudoZero rd rs = .sub rd rs rs ∧
    (∃ t, exec (pseudoMov rd rs) s = .next t ∧ Completed 0x07#8 rd (s.reg rs).toNat s t) ∧
    (∃ t, exec (pseudoZero rd rs) s = .next t ∧ Completed 0x02#8 rd 0 s t)

/-! ### Rules about the whole unit -/

/-- Every instruction completes in every state: exec answers a next state, with the instruction's opcode in LASTOP and no
error or one R87 lists for it (R87, R90, R91, R111), and leaves the port, the issue index and the parameters alone (fields of
the model, log entries 4 to 7). ILLEGAL_OPERATION comes exactly from the term MULW with rd = rd2, which no legal word encodes
(R43, R54): that exec runs this term and raises the error is the model's choice (log entry 10). -/
def Obligations.EveryInstructionCompletes : Prop :=
  ∀ (i : Instr) (s : State), ∃ t, exec i s = .next t ∧ t.status.lastop = i.opcode ∧ SamePort s t ∧
    (t.status.err = .illegalOperation ↔ i.wf = false) ∧
    (i.wf = true → t.status.err = .noError ∨ t.status.err ∈ errorsOf i.opcode)

/-- An instruction that ends with an error has changed nothing but STATUS: ERR is the error, STICKY is 1, LASTOP is the
opcode, every destination keeps its old value (R90). -/
def Obligations.ErrorChangesOnlyStatus : Prop :=
  ∀ (i : Instr) (s t : State), exec i s = .next t → t.status.err ≠ .noError →
    t = { s with status := { err := t.status.err, sticky := true, lastop := i.opcode } }

/-- An instruction that completes without error writes its destinations and no other register, sets ERR to 0 and LASTOP to the
opcode, and leaves STICKY (R91). -/
def Obligations.SuccessWritesDestinationsOnly : Prop :=
  ∀ (i : Instr) (s t : State), exec i s = .next t → t.status.err = .noError →
    (∀ r ∈ dests i, t.isWritten r = true) ∧ SameRegsBut (dests i) s t ∧ StatusCompleted i.opcode s t ∧ SamePort s t

/-- An instruction's results, error code and STATUS update are a function of the instruction, its source registers' values and
the parameters: two states that agree on these give the same (R12). -/
def Obligations.ResultsDependOnSourcesAndParametersOnly : Prop :=
  ∀ (i : Instr) (s u : State), u.params = s.params → (∀ r ∈ sources i, u.reg r = s.reg r) →
    ∃ s' u', exec i s = .next s' ∧ exec i u = .next u' ∧
      u'.status.err = s'.status.err ∧ u'.status.lastop = s'.status.lastop ∧
      (u.status.sticky = s.status.sticky → u'.status.sticky = s'.status.sticky) ∧
      (s'.status.err = .noError → ∀ r ∈ dests i, u'.reg r = s'.reg r)

/-- Running an instruction again whose destinations are not also its sources gives the same state (R29). -/
def Obligations.RepeatedInstructionGivesSameState : Prop :=
  ∀ (i : Instr) (s : State), (∀ r ∈ dests i, r ∉ sources i) → ∃ t, exec i s = .next t ∧ exec i t = .next t

/-- STATUS is consistent after reset (R87, R104). -/
def Obligations.StatusConsistentAtReset : Prop :=
  StatusConsistent State.reset

/-- Every step keeps STATUS consistent: LASTOP and ERR are those of no instruction, of an illegal word, or of an instruction
of the opcode map with no error or one R87 lists for it. -/
def Obligations.StepKeepsStatusConsistent : Prop :=
  ∀ s t : State, StatusConsistent s → step s = .next t → StatusConsistent t

/-- STICKY goes from 1 to 0 only by a WRITE_STATUS with bit 7 set or by RESET, and from 0 to 1 only by an ISSUE that ends with
an error (R18, R95). -/
def Obligations.StickyChangesOnlyByErrorsAndHost : Prop :=
  ∀ s t : State, step s = .next t →
    (s.status.sticky = true → t.status.sticky = false →
      ∃ q rest, s.inbox = q :: rest ∧ ((∃ v, q.op = .writeStatus v ∧ v.getLsbD 7 = true) ∨ q.op = .reset)) ∧
    (s.status.sticky = false → t.status.sticky = true →
      ∃ q rest w, s.inbox = q :: rest ∧ q.op = .issue w ∧ t.status.err ≠ .noError)

/-- A register that was unwritten is written after a step only if the host wrote it or an instruction wrote it as a destination
without error, and a written register becomes unwritten only by RESET (R17). -/
def Obligations.RegistersBecomeWrittenOnlyByWrites : Prop :=
  ∀ (s t : State) (r : Reg), step s = .next t →
    (s.isWritten r = false → t.isWritten r = true →
      ∃ q rest, s.inbox = q :: rest ∧
        ((∃ v, q.op = .writeReg r v) ∨ (∃ k v, q.op = .writeLimb r k v) ∨
          (∃ w i, q.op = .issue w ∧ decodeWord w = some i ∧ r ∈ dests i ∧ t.status.err = .noError))) ∧
    (s.isWritten r = true → t.isWritten r = false → ∃ q rest, s.inbox = q :: rest ∧ q.op = .reset)

/-- The machine with the spec's model fault stops on an ISSUE of a legal word exactly when a source register is unwritten,
naming the first such source field, and otherwise it is `step`; an illegal word reads no register; a host read of a register,
or of one of its limbs, stops exactly when the register is unwritten; every other operation of the port, an idle step, a
second host's operation and a limb read out of range are `step` (R17, R20, R89). That a limb read of a register not wholly
written is an unwritten read of it, and that a port refusal goes before the fault, are the model's choices (log entries 2, 3,
20). -/
def Obligations.StrictStepFaultsOnUnwrittenReads : Prop :=
  (∀ (s u : State) (w : InstrWord) (i : Instr), Accepts s (.issue w) u → decodeWord w = some i →
    (∀ r, strictStep s = .fault (.unwrittenRead r) ↔
      ∃ pre post, sources i = pre ++ r :: post ∧ (∀ p ∈ pre, s.isWritten p = true) ∧ s.isWritten r = false) ∧
    ((∀ r ∈ sources i, s.isWritten r = true) → strictStep s = step s)) ∧
  (∀ (s u : State) (w : InstrWord), Accepts s (.issue w) u → decodeWord w = none → strictStep s = step s) ∧
  (∀ (s u : State) (r : Reg), Accepts s (.readReg r) u →
    (s.isWritten r = false → strictStep s = .fault (.unwrittenRead r)) ∧
    (s.isWritten r = true → strictStep s = step s)) ∧
  (∀ (s u : State) (r : Reg) (k : Nat), Accepts s (.readLimb r k) u →
    (s.params.limbWidth.bits * k < 256 → s.isWritten r = false → strictStep s = .fault (.unwrittenRead r)) ∧
    (s.params.limbWidth.bits * k < 256 → s.isWritten r = true → strictStep s = step s) ∧
    (256 ≤ s.params.limbWidth.bits * k → strictStep s = step s)) ∧
  (∀ (s u : State) (op : HostOp), Accepts s op u →
    (∃ r v, op = .writeReg r v) ∨ (∃ r k v, op = .writeLimb r k v) ∨ op = .readStatus ∨ (∃ v, op = .writeStatus v) ∨
      op = .reset →
    strictStep s = step s) ∧
  (∀ s : State, s.inbox = [] → strictStep s = step s) ∧
  (∀ (s : State) (q : Request) (rest : List Request), s.inbox = q :: rest → q.host ≠ s.host → strictStep s = step s)

/-- The value an unwritten register is given never shows: of two states that differ at most in register bits nothing has
written since reset, if the machine with the spec's model fault steps from one it steps from the other, and the states
after it differ at most so again (R17; it makes the reset value of log entry 1 unobservable in runs without
UNWRITTEN_READ). -/
def Obligations.UnwrittenValuesNeverShow : Prop :=
  ∀ s u s' : State, AgreeOnWritten s u → strictStep s = .next s' →
    ∃ u', strictStep u = .next u' ∧ AgreeOnWritten s' u'

/-- The issue index advances by one for every issued word, whatever the outcome, and by nothing else (R15); no step changes the
parameters or the port's host. That RESET leaves the index is the model's choice (log entry 6), and so is that the parameters
and the host's number are data no step changes (log entries 7, 11). -/
def Obligations.IssueIndexCountsIssuedWords : Prop :=
  ∀ s t : State, step s = .next t →
    t.params = s.params ∧ t.host = s.host ∧
    ((∃ q rest w, s.inbox = q :: rest ∧ q.op = .issue w) → t.position = s.position + 1) ∧
    ((∀ q rest w, s.inbox = q :: rest → q.op ≠ .issue w) → t.position = s.position)

/-! ### The informative datapaths compute the normative results -/

/-- The binary bit scans compute the most and least significant bit index of every non-zero word (R61 to R63); no step
calls them (log entry 16). -/
def Obligations.BitScanDatapathsComputeIndices : Prop :=
  ∀ v : Nat, 0 < v → v < 2 ^ 256 →
    (2 ^ msbDatapath v ≤ v ∧ v < 2 ^ (msbDatapath v + 1)) ∧
    (2 ^ lsbDatapath v ∣ v ∧ ¬ 2 ^ (lsbDatapath v + 1) ∣ v)

/-- The seeded seven-step Newton iteration computes the floor of the square root of every word (R65, R66,
general-knowledge item G1); no step calls it (log entry 16). -/
def Obligations.NewtonDatapathComputesIsqrt : Prop :=
  ∀ v : Nat, v < 2 ^ 256 → sqrtDatapath v * sqrtDatapath v ≤ v ∧ v < (sqrtDatapath v + 1) * (sqrtDatapath v + 1)

/-- The reduction by the modular inverse computes the exact floor of `a*b/d`, with OVERFLOW exactly when it does not fit, from
the product halves that two residues give (R54, R70, general-knowledge items G2 and G7); no step calls it (log
entry 16). -/
def Obligations.MuldivDatapathComputesFloor : Prop :=
  ∀ a b d : Nat, a < 2 ^ 256 → b < 2 ^ 256 →
    mulwDatapath a b = (a * b / 2 ^ 256, a * b % 2 ^ 256) ∧
    (0 < d → d < 2 ^ 256 →
      (a * b / d < 2 ^ 256 → muldivDatapath a b d = .ok (a * b / d)) ∧
      (2 ^ 256 ≤ a * b / d → muldivDatapath a b d = .error .overflow))

/-- DIVUQ's long division computes the exact floor of `r1 * S / r2`, with OVERFLOW exactly from `2^224` on (R79,
R80); no step calls it (log entry 16). -/
def Obligations.DivuqDatapathComputesFloor : Prop :=
  ∀ r1 r2 : Nat, r1 < 2 ^ 256 → 0 < r2 → r2 < 2 ^ 256 →
    (r1 * 2 ^ 112 / r2 < 2 ^ 224 → divuqDatapath r1 r2 = .ok (r1 * 2 ^ 112 / r2)) ∧
    (2 ^ 224 ≤ r1 * 2 ^ 112 / r2 → divuqDatapath r1 r2 = .error .overflow)
end

