-- ==== Sys2Proof/Laws/Arith.lean ====
section
/-! SUPPORT. What the derived functions of 00_scope.md R11 and the width check compute. -/

namespace Sys2Proof.Machine

theorem msbFrom_spec (i v : Nat) (hv : 0 < v) (hi : v < 2 ^ (i + 1)) :
    2 ^ msbFrom i v ≤ v ∧ v < 2 ^ (msbFrom i v + 1) := by
  induction i with
  | zero => simp [msbFrom] at *; omega
  | succ i ih =>
    by_cases h : 2 ^ (i + 1) ≤ v
    · simpa [msbFrom, h] using hi
    · simpa [msbFrom, h] using ih (by omega)

theorem msbFrom_le (i v : Nat) : msbFrom i v ≤ i := by
  induction i with
  | zero => simp [msbFrom]
  | succ i ih => unfold msbFrom; split <;> omega

/-- `msb_index` is the index of R11. -/
theorem msbIndex_spec (v : Nat) (hv : 0 < v) (hi : v < 2 ^ 256) :
    2 ^ msbIndex v ≤ v ∧ v < 2 ^ (msbIndex v + 1) :=
  msbFrom_spec 255 v hv hi

theorem msbIndex_le (v : Nat) : msbIndex v ≤ 255 :=
  msbFrom_le 255 v

/-- The index of R11 is unique. -/
theorem msb_unique {v i j : Nat} (hi : 2 ^ i ≤ v ∧ v < 2 ^ (i + 1)) (hj : 2 ^ j ≤ v ∧ v < 2 ^ (j + 1)) : i = j := by
  have h1 : i < j + 1 := (Nat.pow_lt_pow_iff_right (by decide)).1 (lt_of_le_of_lt hi.1 hj.2)
  have h2 : j < i + 1 := (Nat.pow_lt_pow_iff_right (by decide)).1 (lt_of_le_of_lt hj.1 hi.2)
  omega

theorem lsbFrom_le (i v : Nat) : lsbFrom i v ≤ i := by
  induction i with
  | zero => simp [lsbFrom]
  | succ i ih => unfold lsbFrom; split <;> omega

theorem lsbFrom_dvd (i v : Nat) : 2 ^ lsbFrom i v ∣ v := by
  induction i with
  | zero => simp [lsbFrom]
  | succ i ih =>
    unfold lsbFrom
    split
    · exact Nat.dvd_of_mod_eq_zero ‹_›
    · exact ih

theorem lsbFrom_greatest (i v j : Nat) (hj : j ≤ i) (h : 2 ^ j ∣ v) : j ≤ lsbFrom i v := by
  induction i with
  | zero => simpa [lsbFrom] using hj
  | succ i ih =>
    unfold lsbFrom
    split
    · exact hj
    · rename_i hne
      rcases Nat.lt_or_ge i j with h1 | h1
      · have : j = i + 1 := by omega
        subst this
        exact absurd (Nat.mod_eq_zero_of_dvd h) hne
      · exact ih h1

theorem lsbIndex_le (v : Nat) : lsbIndex v ≤ 255 :=
  lsbFrom_le 255 v

theorem lsbIndex_dvd (v : Nat) : 2 ^ lsbIndex v ∣ v :=
  lsbFrom_dvd 255 v

/-- `lsb_index` is the greatest index of R11. -/
theorem lsbIndex_greatest (v j : Nat) (hv : 0 < v) (hi : v < 2 ^ 256) (h : 2 ^ j ∣ v) : j ≤ lsbIndex v := by
  have h1 : 2 ^ j < 2 ^ 256 := lt_of_le_of_lt (Nat.le_of_dvd hv h) hi
  have h2 : j < 256 := (Nat.pow_lt_pow_iff_right (by decide)).1 h1
  exact lsbFrom_greatest 255 v j (by omega) h

theorem isqrtFrom_spec (n r v : Nat) (h1 : r * r ≤ v) (h2 : v < (r + 2 ^ n) * (r + 2 ^ n)) :
    isqrtFrom n r v * isqrtFrom n r v ≤ v ∧ v < (isqrtFrom n r v + 1) * (isqrtFrom n r v + 1) := by
  induction n generalizing r with
  | zero => exact ⟨by simpa [isqrtFrom] using h1, by simpa [isqrtFrom] using h2⟩
  | succ n ih =>
    by_cases h : (r + 2 ^ n) * (r + 2 ^ n) ≤ v
    · have : r + 2 ^ (n + 1) = r + 2 ^ n + 2 ^ n := by rw [pow_succ]; omega
      rw [this] at h2
      simpa [isqrtFrom, h] using ih _ h h2
    · simpa [isqrtFrom, h] using ih _ h1 (by omega)

/-- `isqrt` is the root of R11, for every number below `2^512`. -/
theorem isqrt_spec (v : Nat) (hv : v < 2 ^ 512) : isqrt v * isqrt v ≤ v ∧ v < (isqrt v + 1) * (isqrt v + 1) := by
  refine isqrtFrom_spec 256 0 v (by omega) ?_
  rw [Nat.zero_add, ← pow_add]
  exact hv

/-- The root of R11 is unique. -/
theorem isqrt_unique {v j k : Nat} (hj : j * j ≤ v ∧ v < (j + 1) * (j + 1)) (hk : k * k ≤ v ∧ v < (k + 1) * (k + 1)) :
    j = k := by
  have h1 : j < k + 1 := Nat.mul_self_lt_mul_self_iff.1 (lt_of_le_of_lt hj.1 hk.2)
  have h2 : k < j + 1 := Nat.mul_self_lt_mul_self_iff.1 (lt_of_le_of_lt hk.1 hj.2)
  omega

/-- A root is below `2^n` when its square is below `2^(2n)`. -/
theorem root_lt {k v n : Nat} (h : k * k ≤ v) (hv : v < 2 ^ n * 2 ^ n) : k < 2 ^ n :=
  Nat.mul_self_lt_mul_self_iff.1 (lt_of_le_of_lt h hv)

theorem fits_ok {bound v : Nat} (h : v < bound) : fits bound v = .ok (BitVec.ofNat 256 v) := by
  simp [fits, h]

theorem fits_error {bound v : Nat} (h : bound ≤ v) : fits bound v = .error .overflow := by
  simp [fits, Nat.not_lt.2 h]

/-- A checked result is the value or OVERFLOW, never anything else (R13). -/
theorem fits_cases (bound v : Nat) :
    (v < bound ∧ fits bound v = .ok (BitVec.ofNat 256 v)) ∨ (bound ≤ v ∧ fits bound v = .error .overflow) := by
  rcases Nat.lt_or_ge v bound with h | h
  · exact .inl ⟨h, fits_ok h⟩
  · exact .inr ⟨h, fits_error h⟩

/-- `cdiv` is the least quotient that covers the dividend (R11). -/
theorem cdiv_spec (a b : Nat) (hb : 0 < b) : a ≤ cdiv a b * b ∧ ∀ q, a ≤ q * b → cdiv a b ≤ q := by
  have hdm : b * (a / b) + a % b = a := Nat.div_add_mod a b
  have hlt : a % b < b := Nat.mod_lt a hb
  have hcomm : b * (a / b) = a / b * b := Nat.mul_comm _ _
  unfold cdiv
  split
  · refine ⟨by rw [Nat.add_mul, Nat.one_mul]; omega, fun q hq => ?_⟩
    by_contra hlt'
    have h1 : q * b ≤ a / b * b := Nat.mul_le_mul_right b (by omega)
    omega
  · refine ⟨by omega, fun q hq => ?_⟩
    exact Nat.le_of_mul_le_mul_right (by omega) hb

end Sys2Proof.Machine
end

