-- ==== Sys2Proof/Laws/Decode.lean ====
section
/-! SUPPORT. The fields of an encoded word, and what each format's decoder accepts. -/

namespace Sys2Proof

theorem field_lt (w : InstrWord) (lo len : Nat) : field w lo len < 2 ^ len :=
  Nat.mod_lt _ (Nat.two_pow_pos len)

@[simp] theorem regField_val (w : InstrWord) (lo : Nat) : (regField w lo).val = field w lo 4 := by
  have := field_lt w lo 4
  exact Nat.mod_eq_of_lt this

@[simp] theorem opcodeOf_toNat (w : InstrWord) : (opcodeOf w).toNat = field w 0 8 := by
  have := field_lt w 0 8
  simp only [opcodeOf, BitVec.toNat_ofNat, Nat.mod_eq_of_lt this]

/-- A word is the sum of its fields (R37). -/
theorem word_eq_fields (w : InstrWord) :
    w.toNat = field w 0 8 + field w 8 4 * 2 ^ 8 + field w 12 4 * 2 ^ 12 + field w 16 4 * 2 ^ 16 +
      field w 20 4 * 2 ^ 20 + field w 24 4 * 2 ^ 24 + field w 28 4 * 2 ^ 28 := by
  have := w.isLt
  simp only [field]
  omega

/-- The fields of a packed word are the fields packed (R37). -/
theorem packFields_toNat (op : Byte) (rd rs1 rs2 rs3 rd2 : Reg) :
    (packFields op rd rs1 rs2 rs3 rd2).toNat = op.toNat + rd.val * 2 ^ 8 + rs1.val * 2 ^ 12 + rs2.val * 2 ^ 16 +
      rs3.val * 2 ^ 20 + rd2.val * 2 ^ 24 := by
  have := op.isLt
  simp only [packFields, BitVec.toNat_ofNat]
  omega

theorem packFields_fields (op : Byte) (rd rs1 rs2 rs3 rd2 : Reg) :
    field (packFields op rd rs1 rs2 rs3 rd2) 0 8 = op.toNat ∧
      field (packFields op rd rs1 rs2 rs3 rd2) 8 4 = rd.val ∧
      field (packFields op rd rs1 rs2 rs3 rd2) 12 4 = rs1.val ∧
      field (packFields op rd rs1 rs2 rs3 rd2) 16 4 = rs2.val ∧
      field (packFields op rd rs1 rs2 rs3 rd2) 20 4 = rs3.val ∧
      field (packFields op rd rs1 rs2 rs3 rd2) 24 4 = rd2.val ∧
      field (packFields op rd rs1 rs2 rs3 rd2) 28 4 = 0 := by
  have := op.isLt
  simp only [field, packFields_toNat]
  omega

/-- Bits 31:16, 31:20 and 31:24 of a packed word, from its register fields. -/
theorem packFields_upper (op : Byte) (rd rs1 rs2 rs3 rd2 : Reg) :
    field (packFields op rd rs1 rs2 rs3 rd2) 16 16 = rs2.val + rs3.val * 2 ^ 4 + rd2.val * 2 ^ 8 ∧
      field (packFields op rd rs1 rs2 rs3 rd2) 20 12 = rs3.val + rd2.val * 2 ^ 4 ∧
      field (packFields op rd rs1 rs2 rs3 rd2) 24 8 = rd2.val := by
  have := op.isLt
  simp only [field, packFields_toNat]
  omega

/-- A word whose register and opcode fields are known, with bits 31:28 zero, is the packed word. -/
theorem packFields_eq {w : InstrWord} {op : Byte} {rd rs1 rs2 rs3 rd2 : Reg} (h0 : field w 0 8 = op.toNat)
    (h1 : field w 8 4 = rd.val) (h2 : field w 12 4 = rs1.val) (h3 : field w 16 4 = rs2.val)
    (h4 : field w 20 4 = rs3.val) (h5 : field w 24 4 = rd2.val) (h6 : field w 28 4 = 0) :
    packFields op rd rs1 rs2 rs3 rd2 = w := by
  apply BitVec.eq_of_toNat_eq
  rw [packFields_toNat, word_eq_fields w, h0, h1, h2, h3, h4, h5, h6]
  omega

theorem regField_eq {w : InstrWord} {lo : Nat} {r : Reg} (h : field w lo 4 = r.val) : regField w lo = r :=
  Fin.ext (by rw [regField_val, h])

/-! ### The masks of R38 as fields -/

theorem mask_r2 (w : InstrWord) : (w &&& Format.r2.mask).toNat = field w 0 8 + field w 16 16 * 2 ^ 16 := by
  have hw : w = BitVec.ofNat 16 (field w 16 16) ++ BitVec.ofNat 8 (field w 8 8) ++ BitVec.ofNat 8 (field w 0 8) := by
    apply BitVec.eq_of_toNat_eq
    have := w.isLt
    simp only [BitVec.toNat_append, BitVec.toNat_ofNat]
    rw [← Nat.shiftLeft_add_eq_or_of_lt (by omega), ← Nat.shiftLeft_add_eq_or_of_lt (by omega)]
    simp only [Nat.shiftLeft_eq, field]
    omega
  have hm : Format.r2.mask = BitVec.allOnes 16 ++ 0#8 ++ BitVec.allOnes 8 := by decide
  have h1 := field_lt w 0 8
  have h2 := field_lt w 16 16
  rw [hm, hw, BitVec.and_append, BitVec.and_append, ← hw]
  simp only [BitVec.and_allOnes, BitVec.and_zero, BitVec.toNat_append, BitVec.toNat_ofNat]
  rw [← Nat.shiftLeft_add_eq_or_of_lt (by omega), ← Nat.shiftLeft_add_eq_or_of_lt (by omega)]
  simp only [Nat.shiftLeft_eq]
  omega

theorem mask_r3 (w : InstrWord) : (w &&& Format.r3.mask).toNat = field w 0 8 + field w 20 12 * 2 ^ 20 := by
  have hw : w = BitVec.ofNat 12 (field w 20 12) ++ BitVec.ofNat 12 (field w 8 12) ++ BitVec.ofNat 8 (field w 0 8) := by
    apply BitVec.eq_of_toNat_eq
    have := w.isLt
    simp only [BitVec.toNat_append, BitVec.toNat_ofNat]
    rw [← Nat.shiftLeft_add_eq_or_of_lt (by omega), ← Nat.shiftLeft_add_eq_or_of_lt (by omega)]
    simp only [Nat.shiftLeft_eq, field]
    omega
  have hm : Format.r3.mask = BitVec.allOnes 12 ++ 0#12 ++ BitVec.allOnes 8 := by decide
  have h1 := field_lt w 0 8
  have h2 := field_lt w 20 12
  rw [hm, hw, BitVec.and_append, BitVec.and_append, ← hw]
  simp only [BitVec.and_allOnes, BitVec.and_zero, BitVec.toNat_append, BitVec.toNat_ofNat]
  rw [← Nat.shiftLeft_add_eq_or_of_lt (by omega), ← Nat.shiftLeft_add_eq_or_of_lt (by omega)]
  simp only [Nat.shiftLeft_eq]
  omega

theorem mask_r4 (w : InstrWord) : (w &&& Format.r4.mask).toNat = field w 0 8 + field w 24 8 * 2 ^ 24 := by
  have hw : w = BitVec.ofNat 8 (field w 24 8) ++ BitVec.ofNat 16 (field w 8 16) ++ BitVec.ofNat 8 (field w 0 8) := by
    apply BitVec.eq_of_toNat_eq
    have := w.isLt
    simp only [BitVec.toNat_append, BitVec.toNat_ofNat]
    rw [← Nat.shiftLeft_add_eq_or_of_lt (by omega), ← Nat.shiftLeft_add_eq_or_of_lt (by omega)]
    simp only [Nat.shiftLeft_eq, field]
    omega
  have hm : Format.r4.mask = BitVec.allOnes 8 ++ 0#16 ++ BitVec.allOnes 8 := by decide
  have h1 := field_lt w 0 8
  have h2 := field_lt w 24 8
  rw [hm, hw, BitVec.and_append, BitVec.and_append, ← hw]
  simp only [BitVec.and_allOnes, BitVec.and_zero, BitVec.toNat_append, BitVec.toNat_ofNat]
  rw [← Nat.shiftLeft_add_eq_or_of_lt (by omega), ← Nat.shiftLeft_add_eq_or_of_lt (by omega)]
  simp only [Nat.shiftLeft_eq]
  omega

theorem mask_rw (w : InstrWord) :
    (w &&& Format.rw.mask).toNat = field w 0 8 + field w 20 4 * 2 ^ 20 + field w 28 4 * 2 ^ 28 := by
  have hw : w = BitVec.ofNat 4 (field w 28 4) ++ BitVec.ofNat 4 (field w 24 4) ++ BitVec.ofNat 4 (field w 20 4) ++
      BitVec.ofNat 12 (field w 8 12) ++ BitVec.ofNat 8 (field w 0 8) := by
    apply BitVec.eq_of_toNat_eq
    have := w.isLt
    simp only [BitVec.toNat_append, BitVec.toNat_ofNat]
    rw [← Nat.shiftLeft_add_eq_or_of_lt (by omega), ← Nat.shiftLeft_add_eq_or_of_lt (by omega),
      ← Nat.shiftLeft_add_eq_or_of_lt (by omega), ← Nat.shiftLeft_add_eq_or_of_lt (by omega)]
    simp only [Nat.shiftLeft_eq, field]
    omega
  have hm : Format.rw.mask = BitVec.allOnes 4 ++ 0#4 ++ BitVec.allOnes 4 ++ 0#12 ++ BitVec.allOnes 8 := by decide
  have h1 := field_lt w 0 8
  have h2 := field_lt w 20 4
  have h3 := field_lt w 28 4
  rw [hm, hw, BitVec.and_append, BitVec.and_append, BitVec.and_append, BitVec.and_append, ← hw]
  simp only [BitVec.and_allOnes, BitVec.and_zero, BitVec.toNat_append, BitVec.toNat_ofNat]
  rw [← Nat.shiftLeft_add_eq_or_of_lt (by omega), ← Nat.shiftLeft_add_eq_or_of_lt (by omega),
    ← Nat.shiftLeft_add_eq_or_of_lt (by omega), ← Nat.shiftLeft_add_eq_or_of_lt (by omega)]
  simp only [Nat.shiftLeft_eq]
  omega

/-! ### The opcode map, row by row (R42) -/

theorem decodeWord_add {w : InstrWord} (h : field w 0 8 = 0x01) : decodeWord w = decodeR3 .add w := by
  rw [decodeWord, h]; rfl

theorem decodeWord_sub {w : InstrWord} (h : field w 0 8 = 0x02) : decodeWord w = decodeR3 .sub w := by
  rw [decodeWord, h]; rfl

theorem decodeWord_mul {w : InstrWord} (h : field w 0 8 = 0x03) : decodeWord w = decodeR3 .mul w := by
  rw [decodeWord, h]; rfl

theorem decodeWord_mulw {w : InstrWord} (h : field w 0 8 = 0x04) : decodeWord w = decodeRW .mulw w := by
  rw [decodeWord, h]; rfl

theorem decodeWord_shl {w : InstrWord} (h : field w 0 8 = 0x05) : decodeWord w = decodeR3 .shl w := by
  rw [decodeWord, h]; rfl

theorem decodeWord_shr {w : InstrWord} (h : field w 0 8 = 0x06) : decodeWord w = decodeR3 .shr w := by
  rw [decodeWord, h]; rfl

theorem decodeWord_and {w : InstrWord} (h : field w 0 8 = 0x07) : decodeWord w = decodeR3 .and w := by
  rw [decodeWord, h]; rfl

theorem decodeWord_msb {w : InstrWord} (h : field w 0 8 = 0x10) : decodeWord w = decodeR2 .msb w := by
  rw [decodeWord, h]; rfl

theorem decodeWord_lsb {w : InstrWord} (h : field w 0 8 = 0x11) : decodeWord w = decodeR2 .lsb w := by
  rw [decodeWord, h]; rfl

theorem decodeWord_sqrt {w : InstrWord} (h : field w 0 8 = 0x18) : decodeWord w = decodeR2 .sqrt w := by
  rw [decodeWord, h]; rfl

theorem decodeWord_muldiv {w : InstrWord} (h : field w 0 8 = 0x20) : decodeWord w = decodeR4 .muldiv w := by
  rw [decodeWord, h]; rfl

theorem decodeWord_muldivup {w : InstrWord} (h : field w 0 8 = 0x21) : decodeWord w = decodeR4 .muldivup w := by
  rw [decodeWord, h]; rfl

theorem decodeWord_encode {w : InstrWord} (h : field w 0 8 = 0x30) : decodeWord w = decodeR2 .encode w := by
  rw [decodeWord, h]; rfl

theorem decodeWord_encode144 {w : InstrWord} (h : field w 0 8 = 0x31) : decodeWord w = decodeR2 .encode144 w := by
  rw [decodeWord, h]; rfl

theorem decodeWord_decode {w : InstrWord} (h : field w 0 8 = 0x32) : decodeWord w = decodeR2 .decode w := by
  rw [decodeWord, h]; rfl

theorem decodeWord_decode144 {w : InstrWord} (h : field w 0 8 = 0x33) : decodeWord w = decodeR2 .decode144 w := by
  rw [decodeWord, h]; rfl

theorem decodeWord_fpmul {w : InstrWord} (h : field w 0 8 = 0x34) : decodeWord w = decodeR3 .fpmul w := by
  rw [decodeWord, h]; rfl

theorem decodeWord_muli {w : InstrWord} (h : field w 0 8 = 0x35) : decodeWord w = decodeR3 .muli w := by
  rw [decodeWord, h]; rfl

theorem decodeWord_muluq {w : InstrWord} (h : field w 0 8 = 0x36) : decodeWord w = decodeR3 .muluq w := by
  rw [decodeWord, h]; rfl

theorem decodeWord_divuq {w : InstrWord} (h : field w 0 8 = 0x37) : decodeWord w = decodeR3 .divuq w := by
  rw [decodeWord, h]; rfl

theorem decodeWord_fraction {w : InstrWord} (h : field w 0 8 = 0x38) : decodeWord w = decodeR3 .fraction w := by
  rw [decodeWord, h]; rfl

theorem decodeWord_recip {w : InstrWord} (h : field w 0 8 = 0x39) : decodeWord w = decodeR2 .recip w := by
  rw [decodeWord, h]; rfl

theorem decodeWord_fpsqrt {w : InstrWord} (h : field w 0 8 = 0x3A) : decodeWord w = decodeR2 .fpsqrt w := by
  rw [decodeWord, h]; rfl

/-! ### Formats of packed words -/

theorem decodeR2_packFields (mk : Reg → Reg → Instr) (op : Byte) (rd rs1 : Reg) :
    decodeR2 mk (packFields op rd rs1 0 0 0) = some (mk rd rs1) := by
  have h := packFields_fields op rd rs1 0 0 0
  simp only [decodeR2, (packFields_upper op rd rs1 0 0 0).1, regField_eq h.2.1, regField_eq h.2.2.1]
  rfl

theorem decodeR3_packFields (mk : Reg → Reg → Reg → Instr) (op : Byte) (rd rs1 rs2 : Reg) :
    decodeR3 mk (packFields op rd rs1 rs2 0 0) = some (mk rd rs1 rs2) := by
  have h := packFields_fields op rd rs1 rs2 0 0
  simp only [decodeR3, (packFields_upper op rd rs1 rs2 0 0).2.1, regField_eq h.2.1, regField_eq h.2.2.1,
    regField_eq h.2.2.2.1]
  rfl

theorem decodeR4_packFields (mk : Reg → Reg → Reg → Reg → Instr) (op : Byte) (rd rs1 rs2 rs3 : Reg) :
    decodeR4 mk (packFields op rd rs1 rs2 rs3 0) = some (mk rd rs1 rs2 rs3) := by
  have h := packFields_fields op rd rs1 rs2 rs3 0
  simp only [decodeR4, (packFields_upper op rd rs1 rs2 rs3 0).2.2, regField_eq h.2.1, regField_eq h.2.2.1,
    regField_eq h.2.2.2.1, regField_eq h.2.2.2.2.1]
  rfl

theorem decodeRW_packFields (mk : Reg → Reg → Reg → Reg → Instr) (op : Byte) {rd rd2 : Reg} (rs1 rs2 : Reg)
    (hne : rd ≠ rd2) : decodeRW mk (packFields op rd rs1 rs2 0 rd2) = some (mk rd rd2 rs1 rs2) := by
  have h := packFields_fields op rd rs1 rs2 0 rd2
  simp only [decodeRW, h.2.2.2.2.1, h.2.2.2.2.2.2, regField_eq h.2.1, regField_eq h.2.2.1, regField_eq h.2.2.2.1,
    regField_eq h.2.2.2.2.2.1]
  simp [hne]

/-! ### What a format's decoder accepts -/

/-- What format R2 accepts. -/
theorem decodeR2_eq_some {mk : Reg → Reg → Instr} {w : InstrWord} {i : Instr} (h : decodeR2 mk w = some i) :
    field w 16 16 = 0 ∧ i = mk (regField w 8) (regField w 12) := by
  unfold decodeR2 at h
  split at h
  · exact ⟨‹_›, (Option.some.inj h).symm⟩
  · cases h

/-- What format R3 accepts. -/
theorem decodeR3_eq_some {mk : Reg → Reg → Reg → Instr} {w : InstrWord} {i : Instr} (h : decodeR3 mk w = some i) :
    field w 20 12 = 0 ∧ i = mk (regField w 8) (regField w 12) (regField w 16) := by
  unfold decodeR3 at h
  split at h
  · exact ⟨‹_›, (Option.some.inj h).symm⟩
  · cases h

/-- What format R4 accepts. -/
theorem decodeR4_eq_some {mk : Reg → Reg → Reg → Reg → Instr} {w : InstrWord} {i : Instr}
    (h : decodeR4 mk w = some i) :
    field w 24 8 = 0 ∧ i = mk (regField w 8) (regField w 12) (regField w 16) (regField w 20) := by
  unfold decodeR4 at h
  split at h
  · exact ⟨‹_›, (Option.some.inj h).symm⟩
  · cases h

/-- What format RW accepts. -/
theorem decodeRW_eq_some {mk : Reg → Reg → Reg → Reg → Instr} {w : InstrWord} {i : Instr}
    (h : decodeRW mk w = some i) :
    (field w 28 4 = 0 ∧ field w 20 4 = 0 ∧ regField w 8 ≠ regField w 24) ∧
      i = mk (regField w 8) (regField w 24) (regField w 12) (regField w 16) := by
  unfold decodeRW at h
  split at h
  · exact ⟨‹_›, (Option.some.inj h).symm⟩
  · cases h

end Sys2Proof
end

