-- ==== Sys2Proof/Laws/State.lean ====
section
/-! SUPPORT. What each update of State does to each field, so that no proof unfolds a record update. -/

namespace Sys2Proof.Machine

/-! ### Registers -/

@[simp] theorem State.reg_setReg_same (s : State) (r : Reg) (v : Word) : (s.setReg r v).reg r = v := by
  simp [State.setReg, State.reg]

theorem State.reg_setReg_other (s : State) {r q : Reg} (v : Word) (h : q ≠ r) : (s.setReg r v).reg q = s.reg q := by
  have : r.val ≠ q.val := fun e => h (Fin.ext e.symm)
  simp [State.setReg, State.reg, this]

@[simp] theorem State.parts_setReg_same (s : State) (r : Reg) (v : Word) : (s.setReg r v).parts r = 0xFF#8 := by
  simp [State.setReg, State.parts]

theorem State.parts_setReg_other (s : State) {r q : Reg} (v : Word) (h : q ≠ r) :
    (s.setReg r v).parts q = s.parts q := by
  have : r.val ≠ q.val := fun e => h (Fin.ext e.symm)
  simp [State.setReg, State.parts, this]

@[simp] theorem State.isWritten_setReg_same (s : State) (r : Reg) (v : Word) : (s.setReg r v).isWritten r = true := by
  simp [State.isWritten]

@[simp] theorem State.reg_setLimb_same (s : State) (r : Reg) (k : Nat) (v : Word) :
    (s.setLimb r k v).reg r = putLimb s.params.limbWidth k v (s.reg r) := by
  simp [State.setLimb, State.reg]

theorem State.reg_setLimb_other (s : State) {r q : Reg} (k : Nat) (v : Word) (h : q ≠ r) :
    (s.setLimb r k v).reg q = s.reg q := by
  have : r.val ≠ q.val := fun e => h (Fin.ext e.symm)
  simp [State.setLimb, State.reg, this]

@[simp] theorem State.parts_setLimb_same (s : State) (r : Reg) (k : Nat) (v : Word) :
    (s.setLimb r k v).parts r = s.parts r ||| limbParts s.params.limbWidth k := by
  simp [State.setLimb, State.parts]

theorem State.parts_setLimb_other (s : State) {r q : Reg} (k : Nat) (v : Word) (h : q ≠ r) :
    (s.setLimb r k v).parts q = s.parts q := by
  have : r.val ≠ q.val := fun e => h (Fin.ext e.symm)
  simp [State.setLimb, State.parts, this]

/-! ### setReg -/

@[simp] theorem State.status_setReg (s : State) (r : Reg) (v : Word) : (s.setReg r v).status = s.status := rfl
@[simp] theorem State.position_setReg (s : State) (r : Reg) (v : Word) : (s.setReg r v).position = s.position := rfl
@[simp] theorem State.host_setReg (s : State) (r : Reg) (v : Word) : (s.setReg r v).host = s.host := rfl
@[simp] theorem State.inbox_setReg (s : State) (r : Reg) (v : Word) : (s.setReg r v).inbox = s.inbox := rfl
@[simp] theorem State.reply_setReg (s : State) (r : Reg) (v : Word) : (s.setReg r v).reply = s.reply := rfl
@[simp] theorem State.params_setReg (s : State) (r : Reg) (v : Word) : (s.setReg r v).params = s.params := rfl

/-! ### setLimb -/

@[simp] theorem State.status_setLimb (s : State) (r : Reg) (k : Nat) (v : Word) : (s.setLimb r k v).status = s.status := rfl
@[simp] theorem State.position_setLimb (s : State) (r : Reg) (k : Nat) (v : Word) : (s.setLimb r k v).position = s.position := rfl
@[simp] theorem State.host_setLimb (s : State) (r : Reg) (k : Nat) (v : Word) : (s.setLimb r k v).host = s.host := rfl
@[simp] theorem State.inbox_setLimb (s : State) (r : Reg) (k : Nat) (v : Word) : (s.setLimb r k v).inbox = s.inbox := rfl
@[simp] theorem State.reply_setLimb (s : State) (r : Reg) (k : Nat) (v : Word) : (s.setLimb r k v).reply = s.reply := rfl
@[simp] theorem State.params_setLimb (s : State) (r : Reg) (k : Nat) (v : Word) : (s.setLimb r k v).params = s.params := rfl

/-! ### complete -/

@[simp] theorem State.regs_complete (s : State) (op : Byte) : (s.complete op).regs = s.regs := rfl
@[simp] theorem State.written_complete (s : State) (op : Byte) : (s.complete op).written = s.written := rfl
@[simp] theorem State.status_complete (s : State) (op : Byte) : (s.complete op).status = s.status.completed op := rfl
@[simp] theorem State.position_complete (s : State) (op : Byte) : (s.complete op).position = s.position := rfl
@[simp] theorem State.host_complete (s : State) (op : Byte) : (s.complete op).host = s.host := rfl
@[simp] theorem State.inbox_complete (s : State) (op : Byte) : (s.complete op).inbox = s.inbox := rfl
@[simp] theorem State.reply_complete (s : State) (op : Byte) : (s.complete op).reply = s.reply := rfl
@[simp] theorem State.params_complete (s : State) (op : Byte) : (s.complete op).params = s.params := rfl
@[simp] theorem State.reg_complete (s : State) (op : Byte) (q : Reg) : (s.complete op).reg q = s.reg q := rfl
@[simp] theorem State.parts_complete (s : State) (op : Byte) (q : Reg) : (s.complete op).parts q = s.parts q := rfl
@[simp] theorem State.isWritten_complete (s : State) (op : Byte) (q : Reg) : (s.complete op).isWritten q = s.isWritten q := rfl

/-! ### raise -/

@[simp] theorem State.regs_raise (s : State) (e : ErrorCode) (op : Byte) : (s.raise e op).regs = s.regs := rfl
@[simp] theorem State.written_raise (s : State) (e : ErrorCode) (op : Byte) : (s.raise e op).written = s.written := rfl
@[simp] theorem State.status_raise (s : State) (e : ErrorCode) (op : Byte) : (s.raise e op).status = s.status.raised e op := rfl
@[simp] theorem State.position_raise (s : State) (e : ErrorCode) (op : Byte) : (s.raise e op).position = s.position := rfl
@[simp] theorem State.host_raise (s : State) (e : ErrorCode) (op : Byte) : (s.raise e op).host = s.host := rfl
@[simp] theorem State.inbox_raise (s : State) (e : ErrorCode) (op : Byte) : (s.raise e op).inbox = s.inbox := rfl
@[simp] theorem State.reply_raise (s : State) (e : ErrorCode) (op : Byte) : (s.raise e op).reply = s.reply := rfl
@[simp] theorem State.params_raise (s : State) (e : ErrorCode) (op : Byte) : (s.raise e op).params = s.params := rfl
@[simp] theorem State.reg_raise (s : State) (e : ErrorCode) (op : Byte) (q : Reg) : (s.raise e op).reg q = s.reg q := rfl
@[simp] theorem State.parts_raise (s : State) (e : ErrorCode) (op : Byte) (q : Reg) : (s.raise e op).parts q = s.parts q := rfl
@[simp] theorem State.isWritten_raise (s : State) (e : ErrorCode) (op : Byte) (q : Reg) : (s.raise e op).isWritten q = s.isWritten q := rfl

/-! ### hardReset -/

@[simp] theorem State.regs_hardReset (s : State) : s.hardReset.regs = State.reset.regs := rfl
@[simp] theorem State.written_hardReset (s : State) : s.hardReset.written = State.reset.written := rfl
@[simp] theorem State.status_hardReset (s : State) : s.hardReset.status = State.reset.status := rfl
@[simp] theorem State.position_hardReset (s : State) : s.hardReset.position = s.position := rfl
@[simp] theorem State.host_hardReset (s : State) : s.hardReset.host = s.host := rfl
@[simp] theorem State.inbox_hardReset (s : State) : s.hardReset.inbox = s.inbox := rfl
@[simp] theorem State.reply_hardReset (s : State) : s.hardReset.reply = s.reply := rfl
@[simp] theorem State.params_hardReset (s : State) : s.hardReset.params = s.params := rfl

/-! ### accept -/

@[simp] theorem State.regs_accept (s : State) (rest : List Request) : (s.accept rest).regs = s.regs := rfl
@[simp] theorem State.written_accept (s : State) (rest : List Request) : (s.accept rest).written = s.written := rfl
@[simp] theorem State.status_accept (s : State) (rest : List Request) : (s.accept rest).status = s.status := rfl
@[simp] theorem State.position_accept (s : State) (rest : List Request) : (s.accept rest).position = s.position := rfl
@[simp] theorem State.host_accept (s : State) (rest : List Request) : (s.accept rest).host = s.host := rfl
@[simp] theorem State.inbox_accept (s : State) (rest : List Request) : (s.accept rest).inbox = rest := rfl
@[simp] theorem State.reply_accept (s : State) (rest : List Request) : (s.accept rest).reply = .nothing := rfl
@[simp] theorem State.params_accept (s : State) (rest : List Request) : (s.accept rest).params = s.params := rfl
@[simp] theorem State.reg_accept (s : State) (rest : List Request) (q : Reg) : (s.accept rest).reg q = s.reg q := rfl
@[simp] theorem State.parts_accept (s : State) (rest : List Request) (q : Reg) : (s.accept rest).parts q = s.parts q := rfl
@[simp] theorem State.isWritten_accept (s : State) (rest : List Request) (q : Reg) : (s.accept rest).isWritten q = s.isWritten q := rfl

/-! ### STATUS -/

@[simp] theorem Status.err_completed (op : Byte) (s : Status) : (s.completed op).err = .noError := rfl
@[simp] theorem Status.lastop_completed (op : Byte) (s : Status) : (s.completed op).lastop = op := rfl
@[simp] theorem Status.sticky_completed (op : Byte) (s : Status) : (s.completed op).sticky = s.sticky := rfl
@[simp] theorem Status.err_raised (e : ErrorCode) (op : Byte) (s : Status) : (s.raised e op).err = e := rfl
@[simp] theorem Status.lastop_raised (e : ErrorCode) (op : Byte) (s : Status) : (s.raised e op).lastop = op := rfl
@[simp] theorem Status.sticky_raised (e : ErrorCode) (op : Byte) (s : Status) : (s.raised e op).sticky = true := rfl
@[simp] theorem Status.err_hostWrite (v : BitVec 32) (s : Status) : (s.hostWrite v).err = s.err := rfl
@[simp] theorem Status.lastop_hostWrite (v : BitVec 32) (s : Status) : (s.hostWrite v).lastop = s.lastop := rfl
@[simp] theorem Status.sticky_hostWrite (v : BitVec 32) (s : Status) :
    (s.hostWrite v).sticky = (s.sticky && !v.getLsbD 7) := rfl

/-! ### Reset -/

@[simp] theorem State.parts_reset (r : Reg) : State.reset.parts r = 0#8 := by
  simp [State.reset, State.parts]

@[simp] theorem State.isWritten_reset (r : Reg) : State.reset.isWritten r = false := by
  simp [State.isWritten]

@[simp] theorem State.reg_hardReset (s : State) (r : Reg) : s.hardReset.reg r = State.reset.reg r := rfl
@[simp] theorem State.parts_hardReset (s : State) (r : Reg) : s.hardReset.parts r = 0#8 := State.parts_reset r
@[simp] theorem State.isWritten_hardReset (s : State) (r : Reg) : s.hardReset.isWritten r = false :=
  State.isWritten_reset r

/-! ### The next instruction -/

@[simp] theorem State.inbox_withFetchWord (s : State) (nbits w : Nat) :
    (s.withFetchWord nbits w).inbox = { host := s.host, op := .issue (tableWord nbits w) } :: s.inbox := rfl
@[simp] theorem State.regs_withFetchWord (s : State) (nbits w : Nat) : (s.withFetchWord nbits w).regs = s.regs := rfl
@[simp] theorem State.status_withFetchWord (s : State) (nbits w : Nat) : (s.withFetchWord nbits w).status = s.status := rfl

end Sys2Proof.Machine
end

