-- ==== Sys2Proof/Laws/Exec.lean ====
section
/-! SUPPORT. What an instruction can do, said once: `exec` as a pure outcome of the source values and the parameters, applied to
the state; and how an outcome meets the terms of Safety. -/

namespace Sys2Proof.Machine

/-- `finish` with a value. -/
@[simp] theorem finish_ok (op : Byte) (rd : Reg) (v : Word) (s : State) :
    finish op rd (.ok v) s = .next ((s.setReg rd v).complete op) := rfl

/-- `finish` with an error. -/
@[simp] theorem finish_error (op : Byte) (rd : Reg) (e : ErrorCode) (s : State) :
    finish op rd (.error e) s = .next (s.raise e op) := rfl

/-- The registers an instruction writes with their values, or its error, from the source values alone. -/
def outcome (i : Instr) (p : Params) (x : Reg → Word) : Except ErrorCode (List (Reg × Word)) :=
  match i with
  | .add rd a b => (fits wordBound ((x a).toNat + (x b).toNat)).map fun v => [(rd, v)]
  | .sub rd a b => (subValue (x a) (x b)).map fun v => [(rd, v)]
  | .mul rd a b => (fits wordBound ((x a).toNat * (x b).toNat)).map fun v => [(rd, v)]
  | .mulw rd rd2 a b =>
    if rd = rd2 then .error .illegalOperation
    else .ok [(rd, BitVec.ofNat 256 ((x a).toNat * (x b).toNat % wordBound)),
      (rd2, BitVec.ofNat 256 ((x a).toNat * (x b).toNat / wordBound))]
  | .shl rd a b => .ok [(rd, shlValue (x a) (x b))]
  | .shr rd a b => .ok [(rd, shrValue (x a) (x b))]
  | .and rd a b => .ok [(rd, x a &&& x b)]
  | .msb rd a => (msbValue (x a)).map fun v => [(rd, v)]
  | .lsb rd a => (lsbValue (x a)).map fun v => [(rd, v)]
  | .sqrt rd a => .ok [(rd, zext (isqrt (x a).toNat))]
  | .muldiv rd a b d => (muldivValue (x a) (x b) (x d)).map fun v => [(rd, v)]
  | .muldivup rd a b d => (muldivupValue (x a) (x b) (x d)).map fun v => [(rd, v)]
  | .encode rd a => (encodeValue (x a)).map fun v => [(rd, v)]
  | .encode144 rd a => (encode144Value (x a)).map fun v => [(rd, v)]
  | .decode rd a => (decodeValue (x a)).map fun v => [(rd, v)]
  | .decode144 rd a => .ok [(rd, BitVec.ofNat 256 ((x a).toNat / scale))]
  | .fpmul rd a b => (fits wordBound ((x a).toNat * (x b).toNat)).map fun v => [(rd, v)]
  | .muli rd a b => (muliValue p.muliMode (x a) (x b)).map fun v => [(rd, v)]
  | .muluq rd a b => (muluqValue p.muluqLimit (x a) (x b)).map fun v => [(rd, v)]
  | .divuq rd a b => (divuqValue (x a) (x b)).map fun v => [(rd, v)]
  | .fraction rd a b => (fractionValue p.fractionLimit (x a) (x b)).map fun v => [(rd, v)]
  | .recip rd a => (recipValue (x a)).map fun v => [(rd, v)]
  | .fpsqrt rd a => .ok [(rd, fpsqrtValue p.fpsqrtLarge (x a))]

/-- The state after an outcome: the writes and STATUS completed, or the error raised. -/
def applyOutcome (op : Byte) (o : Except ErrorCode (List (Reg × Word))) (s : State) : State :=
  match o with
  | .ok ws => (ws.foldl (fun u w => u.setReg w.1 w.2) s).complete op
  | .error e => s.raise e op

theorem finish_eq_apply (op : Byte) (rd : Reg) (value : Except ErrorCode Word) (s : State) :
    finish op rd value s = .next (applyOutcome op (value.map fun v => [(rd, v)]) s) := by
  cases value <;> rfl

/-- Everything an instruction can do: `exec` answers the next state its outcome gives. -/
theorem exec_eq_outcome (i : Instr) (s : State) :
    exec i s = .next (applyOutcome i.opcode (outcome i s.params s.reg) s) := by
  cases i with
  | mulw rd rd2 a b =>
    simp only [exec, execMulw, outcome]
    split <;> rfl
  | _ => first | rfl | exact finish_eq_apply ..

/-- An outcome depends on the source registers alone. -/
theorem outcome_congr (i : Instr) (p : Params) (x y : Reg → Word) (h : ∀ r ∈ sources i, x r = y r) :
    outcome i p x = outcome i p y := by
  cases i <;> simp only [sources, List.mem_cons, List.not_mem_nil, or_false, forall_eq_or_imp, forall_eq] at h <;>
    simp [outcome, h]

/-- A successful outcome writes the destinations, each once, in order. -/
theorem outcome_dests {i : Instr} {p : Params} {x : Reg → Word} {ws : List (Reg × Word)}
    (h : outcome i p x = .ok ws) : ws.map Prod.fst = dests i := by
  have key : ∀ (value : Except ErrorCode Word) (rd : Reg),
      (value.map fun v => [(rd, v)]) = .ok ws → ws.map Prod.fst = [rd] := by
    intro value rd hv
    cases value with
    | ok v => cases hv; rfl
    | error e => cases hv
  cases i <;>
    first
      | exact key _ _ h
      | (simp only [outcome] at h; cases h; rfl)
      | (simp only [outcome] at h
         split at h
         · cases h
         · cases h; rfl)

/-- A failing outcome carries an error R87 lists for the opcode; ILLEGAL_OPERATION comes of an ill-formed MULW alone. -/
theorem outcome_error {i : Instr} {p : Params} {x : Reg → Word} {e : ErrorCode} (h : outcome i p x = .error e) :
    (i.wf = true ∧ e ∈ errorsOf i.opcode ∧ e ≠ .noError ∧ e ≠ .illegalOperation) ∨
      (i.wf = false ∧ e = .illegalOperation) := by
  have key : ∀ (value : Except ErrorCode Word) (rd : Reg),
      (value.map fun v => [(rd, v)]) = .error e → value = .error e := by
    intro value rd hv
    cases value with
    | ok v => cases hv
    | error e' => cases hv; rfl
  cases i <;>
    first
      | (simp only [outcome] at h; cases h)
      | (simp only [outcome] at h
         split at h
         · cases h; right; simp_all [Instr.wf]
         · cases h)
      | (have h' := key _ _ h
         simp only [fits, subValue, msbValue, lsbValue, muldivValue, muldivupValue, encodeValue, encode144Value,
           decodeValue, muliValue, muluqValue, divuqValue, fractionValue, recipValue] at h'
         (repeat' split at h') <;> first | (cases h'; done) | (cases h'; left; simp [Instr.wf, errorsOf, Instr.opcode]))

theorem outcome_wf_ok {i : Instr} {p : Params} {x : Reg → Word} {ws : List (Reg × Word)}
    (h : outcome i p x = .ok ws) : i.wf = true := by
  cases i <;> first | rfl | (simp only [outcome] at h; split at h <;> simp_all [Instr.wf])

/-! ### What applying an outcome leaves alone -/

theorem writes_reg_other (ws : List (Reg × Word)) (s : State) (r : Reg) (h : r ∉ ws.map Prod.fst) :
    (ws.foldl (fun u w => u.setReg w.1 w.2) s).reg r = s.reg r ∧
      (ws.foldl (fun u w => u.setReg w.1 w.2) s).parts r = s.parts r := by
  induction ws generalizing s with
  | nil => exact ⟨rfl, rfl⟩
  | cons w ws ih =>
    simp only [List.map_cons, List.mem_cons, not_or] at h
    have := ih (s.setReg w.1 w.2) h.2
    rw [State.reg_setReg_other _ _ h.1, State.parts_setReg_other _ _ h.1] at this
    exact this

theorem writes_parts_mem (ws : List (Reg × Word)) (s : State) (r : Reg) (h : r ∈ ws.map Prod.fst) :
    (ws.foldl (fun u w => u.setReg w.1 w.2) s).parts r = 0xFF#8 := by
  induction ws generalizing s with
  | nil => cases h
  | cons w ws ih =>
    by_cases h' : r ∈ ws.map Prod.fst
    · exact ih _ h'
    · have hr : r = w.1 := by simpa [h'] using h
      subst hr
      have := (writes_reg_other ws (s.setReg w.1 w.2) w.1 h').2
      simpa using this

theorem writes_port (ws : List (Reg × Word)) (s : State) :
    SamePort s (ws.foldl (fun u w => u.setReg w.1 w.2) s) ∧
      (ws.foldl (fun u w => u.setReg w.1 w.2) s).status = s.status := by
  induction ws generalizing s with
  | nil => exact ⟨⟨rfl, rfl, rfl, rfl, rfl⟩, rfl⟩
  | cons w ws ih =>
    have := ih (s.setReg w.1 w.2)
    exact ⟨⟨this.1.position, this.1.host, this.1.inbox, this.1.reply, this.1.params⟩, this.2⟩

/-- A register whose writes are all of one state-independent list gets the same value in any state. -/
theorem writes_reg_mem (ws : List (Reg × Word)) (s u : State) (r : Reg) (h : r ∈ ws.map Prod.fst) :
    (ws.foldl (fun u w => u.setReg w.1 w.2) s).reg r = (ws.foldl (fun u w => u.setReg w.1 w.2) u).reg r := by
  induction ws generalizing s u with
  | nil => cases h
  | cons w ws ih =>
    by_cases h' : r ∈ ws.map Prod.fst
    · exact ih _ _ h'
    · have hr : r = w.1 := by simpa [h'] using h
      subst hr
      have h1 := (writes_reg_other ws (s.setReg w.1 w.2) w.1 h').1
      have h2 := (writes_reg_other ws (u.setReg w.1 w.2) w.1 h').1
      simp only [List.foldl_cons, h1, h2, State.reg_setReg_same]

theorem applyOutcome_port (op : Byte) (o : Except ErrorCode (List (Reg × Word))) (s : State) :
    SamePort s (applyOutcome op o s) := by
  cases o with
  | ok ws =>
    have := (writes_port ws s).1
    exact ⟨this.position, this.host, this.inbox, this.reply, this.params⟩
  | error e => exact ⟨rfl, rfl, rfl, rfl, rfl⟩

@[simp] theorem applyOutcome_lastop (op : Byte) (o : Except ErrorCode (List (Reg × Word))) (s : State) :
    (applyOutcome op o s).status.lastop = op := by
  cases o <;> rfl

/-! ### The terms of Safety -/

theorem SamePort.refl (s : State) : SamePort s s :=
  ⟨rfl, rfl, rfl, rfl, rfl⟩

theorem SamePort.trans {s t u : State} (h1 : SamePort s t) (h2 : SamePort t u) : SamePort s u :=
  ⟨h2.position.trans h1.position, h2.host.trans h1.host, h2.inbox.trans h1.inbox, h2.reply.trans h1.reply,
    h2.params.trans h1.params⟩

/-- Writing one register and completing STATUS is a completed instruction. -/
theorem Completed.of_setReg (op : Byte) (rd : Reg) (v : Word) (s : State) :
    Completed op rd v.toNat s ((s.setReg rd v).complete op) where
  result := by simp
  written := by simp
  regs := by
    intro r hr
    have hr' : r ≠ rd := by simpa using hr
    simp [State.reg_setReg_other _ _ hr', State.parts_setReg_other _ _ hr']
  status := ⟨rfl, rfl, rfl⟩
  port := ⟨rfl, rfl, rfl, rfl, rfl⟩

/-- The same, for a number below `2^256`. -/
theorem Completed.of_ofNat (op : Byte) (rd : Reg) {v : Nat} (h : v < 2 ^ 256) (s : State) :
    Completed op rd v s ((s.setReg rd (BitVec.ofNat 256 v)).complete op) := by
  have := Completed.of_setReg op rd (BitVec.ofNat 256 v) s
  rwa [BitVec.toNat_ofNat, Nat.mod_eq_of_lt h] at this

/-- Raising an error is a raised error. -/
theorem Raised.of_raise (op : Byte) (e : ErrorCode) (s : State) : Raised op e s (s.raise e op) where
  err := rfl
  sticky := rfl
  lastop := rfl
  regs := fun _ _ => ⟨rfl, rfl⟩
  port := ⟨rfl, rfl, rfl, rfl, rfl⟩

/-! ### Steps -/

/-- A step serves the operation the port accepts. -/
theorem step_of_accepts {s u : State} {op : HostOp} (h : Accepts s op u) : step s = serve op u := by
  obtain ⟨rest, hi, rfl⟩ := h
  simp only [step, hi, serveRequest, State.accept, if_true]

/-- What a step is: idle, an operation of the port's host served, or the refusal of a second host's. -/
theorem step_cases (s : State) :
    (s.inbox = [] ∧ step s = .next s) ∨
      (∃ q rest, s.inbox = q :: rest ∧ q.host = s.host ∧ step s = serve q.op (s.accept rest)) ∨
      (∃ q rest, s.inbox = q :: rest ∧ q.host ≠ s.host ∧ step s = .refused (.secondHost q.host)) := by
  cases hi : s.inbox with
  | nil => exact .inl ⟨rfl, by simp [step, hi]⟩
  | cons q rest =>
    by_cases hq : q.host = s.host
    · exact .inr (.inl ⟨q, rest, rfl, hq, by simp [step, hi, serveRequest, hq]⟩)
    · exact .inr (.inr ⟨q, rest, rfl, hq, by simp [step, hi, serveRequest, hq]⟩)

end Sys2Proof.Machine
end

