-- ==== Sys2Proof/Laws/Operands.lean ====
section
/-! SUPPORT. The bits of limbs (20_memory.md R25) and the number views of a register (00_scope.md R8). -/

namespace Sys2Proof.Machine

theorem limbMask_getLsbD (w : LimbWidth) (b : Nat) : (limbMask w).getLsbD b = decide (b < w.bits) := by
  have h : w.bits ≤ 256 := by cases w <;> decide
  simp only [limbMask, BitVec.getLsbD_ofNat, Nat.testBit_two_pow_sub_one]
  by_cases hb : b < w.bits
  · simp [hb]; omega
  · simp [hb]

/-- A bit of a value with one limb replaced: the new value's inside the limb, the old one's outside it (R25). -/
theorem putLimb_getLsbD (w : LimbWidth) (k : Nat) (v old : Word) (b : Nat) (hb : b < 256) :
    (putLimb w k v old).getLsbD b =
      (if w.bits * k ≤ b ∧ b < w.bits * k + w.bits then v.getLsbD (b - w.bits * k) else old.getLsbD b) := by
  simp only [putLimb, BitVec.getLsbD_or, BitVec.getLsbD_and, BitVec.getLsbD_not, BitVec.getLsbD_shiftLeft,
    limbMask_getLsbD, hb, decide_true, Bool.true_and]
  by_cases h1 : w.bits * k ≤ b
  · have h1' : ¬ b < w.bits * k := by omega
    by_cases h2 : b < w.bits * k + w.bits
    · have h3 : b - w.bits * k < w.bits := by omega
      simp [h1, h2, h1', h3]
    · have h3 : ¬ b - w.bits * k < w.bits := by omega
      simp [h1, h2, h1', h3]
  · have h1' : b < w.bits * k := by omega
    simp [h1, h1']

/-- A bit of a limb (R25). -/
theorem getLimb_getLsbD (w : LimbWidth) (k : Nat) (v : Word) (b : Nat) :
    (getLimb w k v).getLsbD b = (v.getLsbD (w.bits * k + b) && decide (b < w.bits)) := by
  simp only [getLimb, BitVec.getLsbD_and, BitVec.getLsbD_ushiftRight, limbMask_getLsbD]

/-- A limb as a number (R25). -/
theorem getLimb_toNat (w : LimbWidth) (k : Nat) (v : Word) :
    (getLimb w k v).toNat = v.toNat / 2 ^ (w.bits * k) % 2 ^ w.bits := by
  have h : 2 ^ w.bits - 1 < 2 ^ 256 := by cases w <;> decide
  simp only [getLimb, limbMask, BitVec.toNat_and, BitVec.toNat_ushiftRight, BitVec.toNat_ofNat, Nat.mod_eq_of_lt h,
    Nat.and_two_pow_sub_one_eq_mod, Nat.shiftRight_eq_div_pow]

/-- A limb index is in range exactly when its first bit is (R25, R28). -/
theorem limb_in_range (w : LimbWidth) (k : Nat) : k < w.count ↔ w.bits * k < 256 := by
  cases w <;> simp only [LimbWidth.count, LimbWidth.bits] <;> omega

/-- The parts a limb covers are those its bits lie in. -/
theorem limbParts_getLsbD (w : LimbWidth) (k j : Nat) (hk : k < w.count) (hj : j < 8) :
    (limbParts w k).getLsbD j = decide (w.bits * k ≤ 32 * j ∧ 32 * j < w.bits * k + w.bits) := by
  cases w <;> simp only [LimbWidth.count] at hk <;> interval_cases k <;> interval_cases j <;> decide

/-- `to_signed` is the two's-complement value: the one in range that is congruent to the word (R8). -/
theorem toSigned_spec (u : Word) :
    -(2 ^ 255) ≤ toSigned u ∧ toSigned u < 2 ^ 255 ∧ toSigned u % 2 ^ 256 = u.toNat := by
  have := u.isLt
  unfold toSigned
  split <;> omega

/-- `to_unsigned` is the residue modulo `2^256` (R8). -/
theorem toUnsigned_toNat (z : Int) : (toUnsigned z).toNat = (z % 2 ^ 256).toNat := by
  simp only [toUnsigned, BitVec.toNat_ofNat]
  omega

end Sys2Proof.Machine
end

