-- ==== Sys2Proof/Laws/PerInstr.lean ====
section
/-! SUPPORT. Statements made per instruction. `RowMatch`: an instruction's word matches its row of the opcode map under the
row's mask, `(w & mask) = opcode` (30_encoding.md R38), and the map has that row (R42). -/

namespace Sys2Proof.Laws

/-- The instruction's word, masked by its format, is its opcode, and the opcode map has the row. -/
def RowMatch.Statement (i : Instr) : Prop :=
  (encodeWord i &&& i.format.mask) = i.opcode.zeroExtend 32 ∧ (i.opcode, i.format) ∈ opcodeMap

theorem zeroExtend_toNat (op : Byte) : (op.zeroExtend 32).toNat = op.toNat := by
  have := op.isLt
  simp only [BitVec.truncate_eq_setWidth, BitVec.toNat_setWidth]
  omega

theorem packFields_r2 (op : Byte) (rd rs1 : Reg) :
    (packFields op rd rs1 0 0 0 &&& Format.r2.mask) = op.zeroExtend 32 := by
  apply BitVec.eq_of_toNat_eq
  rw [mask_r2, zeroExtend_toNat, (packFields_fields op rd rs1 0 0 0).1, (packFields_upper op rd rs1 0 0 0).1]
  rfl

theorem packFields_r3 (op : Byte) (rd rs1 rs2 : Reg) :
    (packFields op rd rs1 rs2 0 0 &&& Format.r3.mask) = op.zeroExtend 32 := by
  apply BitVec.eq_of_toNat_eq
  rw [mask_r3, zeroExtend_toNat, (packFields_fields op rd rs1 rs2 0 0).1, (packFields_upper op rd rs1 rs2 0 0).2.1]
  rfl

theorem packFields_r4 (op : Byte) (rd rs1 rs2 rs3 : Reg) :
    (packFields op rd rs1 rs2 rs3 0 &&& Format.r4.mask) = op.zeroExtend 32 := by
  apply BitVec.eq_of_toNat_eq
  rw [mask_r4, zeroExtend_toNat, (packFields_fields op rd rs1 rs2 rs3 0).1, (packFields_upper op rd rs1 rs2 rs3 0).2.2]
  rfl

theorem packFields_rw (op : Byte) (rd rd2 rs1 rs2 : Reg) :
    (packFields op rd rs1 rs2 0 rd2 &&& Format.rw.mask) = op.zeroExtend 32 := by
  have h := packFields_fields op rd rs1 rs2 0 rd2
  apply BitVec.eq_of_toNat_eq
  rw [mask_rw, zeroExtend_toNat, h.1, h.2.2.2.2.1, h.2.2.2.2.2.2]
  rfl

theorem RowMatch.add (rd rs1 rs2 : Reg) : RowMatch.Statement (.add rd rs1 rs2) :=
  ⟨packFields_r3 _ rd rs1 rs2, by simp [Instr.opcode, Instr.format, opcodeMap]⟩

theorem RowMatch.sub (rd rs1 rs2 : Reg) : RowMatch.Statement (.sub rd rs1 rs2) :=
  ⟨packFields_r3 _ rd rs1 rs2, by simp [Instr.opcode, Instr.format, opcodeMap]⟩

theorem RowMatch.mul (rd rs1 rs2 : Reg) : RowMatch.Statement (.mul rd rs1 rs2) :=
  ⟨packFields_r3 _ rd rs1 rs2, by simp [Instr.opcode, Instr.format, opcodeMap]⟩

theorem RowMatch.mulw (rd rd2 rs1 rs2 : Reg) : RowMatch.Statement (.mulw rd rd2 rs1 rs2) :=
  ⟨packFields_rw _ rd rd2 rs1 rs2, by simp [Instr.opcode, Instr.format, opcodeMap]⟩

theorem RowMatch.shl (rd rs1 rs2 : Reg) : RowMatch.Statement (.shl rd rs1 rs2) :=
  ⟨packFields_r3 _ rd rs1 rs2, by simp [Instr.opcode, Instr.format, opcodeMap]⟩

theorem RowMatch.shr (rd rs1 rs2 : Reg) : RowMatch.Statement (.shr rd rs1 rs2) :=
  ⟨packFields_r3 _ rd rs1 rs2, by simp [Instr.opcode, Instr.format, opcodeMap]⟩

theorem RowMatch.and (rd rs1 rs2 : Reg) : RowMatch.Statement (.and rd rs1 rs2) :=
  ⟨packFields_r3 _ rd rs1 rs2, by simp [Instr.opcode, Instr.format, opcodeMap]⟩

theorem RowMatch.msb (rd rs1 : Reg) : RowMatch.Statement (.msb rd rs1) :=
  ⟨packFields_r2 _ rd rs1, by simp [Instr.opcode, Instr.format, opcodeMap]⟩

theorem RowMatch.lsb (rd rs1 : Reg) : RowMatch.Statement (.lsb rd rs1) :=
  ⟨packFields_r2 _ rd rs1, by simp [Instr.opcode, Instr.format, opcodeMap]⟩

theorem RowMatch.sqrt (rd rs1 : Reg) : RowMatch.Statement (.sqrt rd rs1) :=
  ⟨packFields_r2 _ rd rs1, by simp [Instr.opcode, Instr.format, opcodeMap]⟩

theorem RowMatch.muldiv (rd rs1 rs2 rs3 : Reg) : RowMatch.Statement (.muldiv rd rs1 rs2 rs3) :=
  ⟨packFields_r4 _ rd rs1 rs2 rs3, by simp [Instr.opcode, Instr.format, opcodeMap]⟩

theorem RowMatch.muldivup (rd rs1 rs2 rs3 : Reg) : RowMatch.Statement (.muldivup rd rs1 rs2 rs3) :=
  ⟨packFields_r4 _ rd rs1 rs2 rs3, by simp [Instr.opcode, Instr.format, opcodeMap]⟩

theorem RowMatch.encode (rd rs1 : Reg) : RowMatch.Statement (.encode rd rs1) :=
  ⟨packFields_r2 _ rd rs1, by simp [Instr.opcode, Instr.format, opcodeMap]⟩

theorem RowMatch.encode144 (rd rs1 : Reg) : RowMatch.Statement (.encode144 rd rs1) :=
  ⟨packFields_r2 _ rd rs1, by simp [Instr.opcode, Instr.format, opcodeMap]⟩

theorem RowMatch.decode (rd rs1 : Reg) : RowMatch.Statement (.decode rd rs1) :=
  ⟨packFields_r2 _ rd rs1, by simp [Instr.opcode, Instr.format, opcodeMap]⟩

theorem RowMatch.decode144 (rd rs1 : Reg) : RowMatch.Statement (.decode144 rd rs1) :=
  ⟨packFields_r2 _ rd rs1, by simp [Instr.opcode, Instr.format, opcodeMap]⟩

theorem RowMatch.fpmul (rd rs1 rs2 : Reg) : RowMatch.Statement (.fpmul rd rs1 rs2) :=
  ⟨packFields_r3 _ rd rs1 rs2, by simp [Instr.opcode, Instr.format, opcodeMap]⟩

theorem RowMatch.muli (rd rs1 rs2 : Reg) : RowMatch.Statement (.muli rd rs1 rs2) :=
  ⟨packFields_r3 _ rd rs1 rs2, by simp [Instr.opcode, Instr.format, opcodeMap]⟩

theorem RowMatch.muluq (rd rs1 rs2 : Reg) : RowMatch.Statement (.muluq rd rs1 rs2) :=
  ⟨packFields_r3 _ rd rs1 rs2, by simp [Instr.opcode, Instr.format, opcodeMap]⟩

theorem RowMatch.divuq (rd rs1 rs2 : Reg) : RowMatch.Statement (.divuq rd rs1 rs2) :=
  ⟨packFields_r3 _ rd rs1 rs2, by simp [Instr.opcode, Instr.format, opcodeMap]⟩

theorem RowMatch.fraction (rd rs1 rs2 : Reg) : RowMatch.Statement (.fraction rd rs1 rs2) :=
  ⟨packFields_r3 _ rd rs1 rs2, by simp [Instr.opcode, Instr.format, opcodeMap]⟩

theorem RowMatch.recip (rd rs1 : Reg) : RowMatch.Statement (.recip rd rs1) :=
  ⟨packFields_r2 _ rd rs1, by simp [Instr.opcode, Instr.format, opcodeMap]⟩

theorem RowMatch.fpsqrt (rd rs1 : Reg) : RowMatch.Statement (.fpsqrt rd rs1) :=
  ⟨packFields_r2 _ rd rs1, by simp [Instr.opcode, Instr.format, opcodeMap]⟩

end Sys2Proof.Laws
end

