-- ==== Sys2Proof/Laws/Strict.lean ====
section
/-! SUPPORT. What `strictStep` can do, said once, and which unwritten register it reads. -/

namespace Sys2Proof.Machine

theorem strictStep_of_some {s : State} {r : Reg} (h : s.unwrittenRead = some r) :
    strictStep s = .fault (.unwrittenRead r) := by
  simp [strictStep, h]

theorem strictStep_of_none {s : State} (h : s.unwrittenRead = none) : strictStep s = step s := by
  simp [strictStep, h]

/-- With an operation of the port's own host waiting first, the next step's unwritten read is that operation's. -/
theorem State.unwrittenRead_of_accepts {s u : State} {op : HostOp} (h : Accepts s op u) :
    s.unwrittenRead = unwrittenReadOf op s := by
  obtain ⟨rest, hi, -⟩ := h
  simp [State.unwrittenRead, hi]

/-- No register of the list is unwritten. -/
theorem State.firstUnwritten_eq_none_iff (s : State) (rs : List Reg) :
    s.firstUnwritten rs = none ↔ ∀ r ∈ rs, s.isWritten r = true := by
  simp [State.firstUnwritten]

/-- The first unwritten register of a list: every one before it is written. -/
theorem State.firstUnwritten_eq_some_iff (s : State) (rs : List Reg) (r : Reg) :
    s.firstUnwritten rs = some r ↔
      ∃ pre post, rs = pre ++ r :: post ∧ (∀ p ∈ pre, s.isWritten p = true) ∧ s.isWritten r = false := by
  rw [State.firstUnwritten, List.find?_eq_some_iff_append]
  constructor
  · rintro ⟨hr, pre, post, he, hp⟩
    exact ⟨pre, post, he, fun p hm => by simpa using hp p hm, by simpa using hr⟩
  · rintro ⟨pre, post, he, hp, hr⟩
    exact ⟨by simpa using hr, pre, post, he, fun p hm => by simpa using hp p hm⟩

end Sys2Proof.Machine
end

