-- ==== Sys2Proof/Tests/Slice0.lean ====
section
/-! SUPPORT. The model's own tests. Expected results are the vectors of 95_test_vectors.md (their ids are named) and words written
out bit by bit from the fields of 30_encoding.md R37. At the end, for every statement with hypotheses, a theorem named
witness_<statement> shows concrete values that meet them. -/

namespace Sys2Proof.Tests

open Sys2Proof.Machine

/-! ### WellFormed -/

theorem test_wf_mulw_same_destinations_refused : (Instr.mulw 4 4 1 2).wf = false := by decide

theorem test_wf_mulw_two_destinations : (Instr.mulw 4 5 4 5).wf = true := by decide

/-! ### Decoding: bits 31:28, rd2, rs3, rs2, rs1, rd, opcode (2.1) -/

theorem test_decode_add : decodeWord 0b0000_0000_0000_0011_0010_0001_0000_0001#32 = some (.add 1 2 3) := by decide

theorem test_decode_sub : decodeWord 0b0000_0000_0000_0011_0010_0001_0000_0010#32 = some (.sub 1 2 3) := by decide

theorem test_decode_mul : decodeWord 0b0000_0000_0000_0011_0010_0001_0000_0011#32 = some (.mul 1 2 3) := by decide

theorem test_decode_mulw : decodeWord 0b0000_0101_0000_0011_0010_0001_0000_0100#32 = some (.mulw 1 5 2 3) := by decide

theorem test_decode_shl : decodeWord 0b0000_0000_0000_0011_0010_0001_0000_0101#32 = some (.shl 1 2 3) := by decide

theorem test_decode_shr : decodeWord 0b0000_0000_0000_0011_0010_0001_0000_0110#32 = some (.shr 1 2 3) := by decide

theorem test_decode_and : decodeWord 0b0000_0000_0000_0011_0010_0001_0000_0111#32 = some (.and 1 2 3) := by decide

theorem test_decode_msb : decodeWord 0b0000_0000_0000_0000_0010_0001_0001_0000#32 = some (.msb 1 2) := by decide

theorem test_decode_lsb : decodeWord 0b0000_0000_0000_0000_0010_0001_0001_0001#32 = some (.lsb 1 2) := by decide

theorem test_decode_sqrt : decodeWord 0b0000_0000_0000_0000_0010_0001_0001_1000#32 = some (.sqrt 1 2) := by decide

theorem test_decode_muldiv : decodeWord 0b0000_0000_0100_0011_0010_0001_0010_0000#32 = some (.muldiv 1 2 3 4) := by decide

theorem test_decode_muldivup : decodeWord 0b0000_0000_0100_0011_0010_0001_0010_0001#32 = some (.muldivup 1 2 3 4) := by decide

theorem test_decode_encode : decodeWord 0b0000_0000_0000_0000_0010_0001_0011_0000#32 = some (.encode 1 2) := by decide

theorem test_decode_encode144 : decodeWord 0b0000_0000_0000_0000_0010_0001_0011_0001#32 = some (.encode144 1 2) := by decide

theorem test_decode_decode : decodeWord 0b0000_0000_0000_0000_0010_0001_0011_0010#32 = some (.decode 1 2) := by decide

theorem test_decode_decode144 : decodeWord 0b0000_0000_0000_0000_0010_0001_0011_0011#32 = some (.decode144 1 2) := by decide

theorem test_decode_fpmul : decodeWord 0b0000_0000_0000_0011_0010_0001_0011_0100#32 = some (.fpmul 1 2 3) := by decide

theorem test_decode_muli : decodeWord 0b0000_0000_0000_0011_0010_0001_0011_0101#32 = some (.muli 1 2 3) := by decide

theorem test_decode_muluq : decodeWord 0b0000_0000_0000_0011_0010_0001_0011_0110#32 = some (.muluq 1 2 3) := by decide

theorem test_decode_divuq : decodeWord 0b0000_0000_0000_0011_0010_0001_0011_0111#32 = some (.divuq 1 2 3) := by decide

theorem test_decode_fraction : decodeWord 0b0000_0000_0000_0011_0010_0001_0011_1000#32 = some (.fraction 1 2 3) := by decide

theorem test_decode_recip : decodeWord 0b0000_0000_0000_0000_0010_0001_0011_1001#32 = some (.recip 1 2) := by decide

theorem test_decode_fpsqrt : decodeWord 0b0000_0000_0000_0000_0010_0001_0011_1010#32 = some (.fpsqrt 1 2) := by decide

/-- V-ENC-1 to V-ENC-4. -/
theorem test_decode_unassigned_opcodes_refused :
    [0x00000000#32, 0x000000FF#32, 0x00000008#32, 0x0000003B#32].map decodeWord = [none, none, none, none] := by decide

/-- V-ENC-5 to V-ENC-8. -/
theorem test_decode_unused_fields_refused :
    [0x00121310#32, 0x00032110#32, 0x00432101#32, 0x01432120#32].map decodeWord = [none, none, none, none] := by decide

/-- V-ENC-9, V-ENC-11, V-ENC-12. -/
theorem test_decode_high_bits_refused :
    [0x05432104#32, 0x10021301#32, 0x80000001#32].map decodeWord = [none, none, none] := by decide

/-- V-ENC-10, V-ENC-15: the two destinations of MULW are one. -/
theorem test_decode_mulw_same_destinations_refused :
    [0x04021404#32, 0x0F0FFF04#32].map decodeWord = [none, none] := by decide

/-- V-ENC-13, V-ENC-14, V-ENC-16, V-ENC-17. -/
theorem test_decode_legal_corners :
    [0x00021301#32, 0x00000001#32, 0x0E0FFF04#32, 0x0000EF3A#32].map decodeWord =
      [some (.add 3 1 2), some (.add 0 0 0), some (.mulw 15 14 15 15), some (.fpsqrt 15 14)] := by decide

/-- 2.1: the bytes of MULW x1, x5, x2, x3. -/
theorem test_bytes_little_endian : bytesOfWord 0x05032104#32 = [0x04#8, 0x21#8, 0x03#8, 0x05#8] := by decide

theorem test_decode_bytes_leaves_rest :
    decodeBytes [0x3A#8, 0x21#8, 0x00#8, 0x00#8, 0x77#8] = some (.fpsqrt 1 2, [0x77#8]) := by decide

theorem test_decode_table_word : decodeTableWord 32 0x00432121 = some (.muldivup 1 2 3 4) := by decide

/-! ### One step on a small state -/

/-- The state after reset with `x1`, `x2`, ... holding the numbers of the list. -/
def xs (l : List Nat) : State :=
  (l.zipIdx 1).foldl (fun s v => s.setReg (Fin.ofNat 16 v.2) (BitVec.ofNat 256 v.1)) State.reset

/-- The state with these parameters. -/
def State.withParams (p : Params) (s : State) : State :=
  { s with params := p }

/-- The state whose host has this one operation waiting. -/
def State.waiting (op : HostOp) (s : State) : State :=
  { s with inbox := [{ host := s.host, op := op }] }

/-- A register and STATUS after one step that serves the operation. -/
def after (op : HostOp) (s : State) (r : Reg) : Option (Nat × Nat) :=
  match step (State.waiting op s) with
  | .next t => some ((t.reg r).toNat, t.status.word.toNat)
  | .fault _ => none
  | .refused _ => none

/-- What one step that serves the operation returns. -/
def replyTo (op : HostOp) (s : State) : Option Reply :=
  match step (State.waiting op s) with
  | .next t => some t.reply
  | .fault _ => none
  | .refused _ => none

/-- How one step that serves the operation stops. -/
def stopOf (op : HostOp) (s : State) : Option (Fault ⊕ Refusal) :=
  match strictStep (State.waiting op s) with
  | .next _ => none
  | .fault f => some (.inl f)
  | .refused r => some (.inr r)

/-- MULI_MODE = TRUNC, and both limits at 2^224. -/
def other : Params :=
  { Params.default with muliMode := .trunc, muluqLimit := .pow224, fractionLimit := .pow224 }

/-- V-W-ADD-1. -/
theorem test_add_largest :
    after (.issue 0x00021301#32) (xs [2 ^ 256 - 2, 1]) 3 = some (2 ^ 256 - 1, 0x00000100) := by decide

/-- V-W-ADD-6. -/
theorem test_add_overflow_keeps_destination :
    after (.issue 0x00011101#32) (xs [2 ^ 255]) 1 = some (2 ^ 255, 0x00000183) := by decide

/-- V-W-SUB-1. -/
theorem test_sub_order :
    after (.issue 0x00021302#32) (xs [7, 5]) 3 = some (2, 0x00000200) := by decide

/-- V-W-SUB-3. -/
theorem test_sub_negative :
    after (.issue 0x00021302#32) (xs [0, 1, 9]) 3 = some (9, 0x00000283) := by decide

/-- V-W-MUL-5. -/
theorem test_mul_fits :
    after (.issue 0x00021303#32) (xs [2 ^ 224 - 1, 2 ^ 32]) 3 = some (0xffffffffffffffffffffffffffffffffffffffffffffffffffffffff00000000, 0x00000300) := by decide

/-- V-W-MUL-6. -/
theorem test_mul_overflow :
    after (.issue 0x00021303#32) (xs [2 ^ 224 - 1, 2 ^ 32 + 1, 9]) 3 = some (9, 0x00000383) := by decide

/-- V-W-MULW-4, x1. -/
theorem test_mulw_low_half_over_its_source :
    after (.issue 0x02021104#32) (xs [2 ^ 255, 4]) 1 = some (0, 0x00000400) := by decide

/-- V-W-MULW-4, x2. -/
theorem test_mulw_high_half_over_its_source :
    after (.issue 0x02021104#32) (xs [2 ^ 255, 4]) 2 = some (2, 0x00000400) := by decide

/-- V-W-SHL-1. -/
theorem test_shl_to_top_bit :
    after (.issue 0x00021305#32) (xs [3, 255]) 3 = some (2 ^ 255, 0x00000500) := by decide

/-- V-W-SHL-4. -/
theorem test_shl_whole_register_amount :
    after (.issue 0x00021305#32) (xs [2 ^ 256 - 1, 2 ^ 256 - 1, 9]) 3 = some (0, 0x00000500) := by decide

/-- V-W-SHR-4. -/
theorem test_shr_zero_fill :
    after (.issue 0x00021306#32) (xs [2 ^ 255, 1]) 3 = some (2 ^ 254, 0x00000600) := by decide

/-- V-W-SHR-3. -/
theorem test_shr_by_256 :
    after (.issue 0x00021306#32) (xs [2 ^ 256 - 1, 256, 9]) 3 = some (0, 0x00000600) := by decide

/-- V-W-AND-1. -/
theorem test_and_mask :
    after (.issue 0x00021307#32) (xs [2 ^ 256 - 1, 2 ^ 112 - 1]) 3 = some (2 ^ 112 - 1, 0x00000700) := by decide

/-- V-W-AND-3. -/
theorem test_and_mov :
    after (.issue 0x00011407#32) (xs [0xabc]) 4 = some (0xabc, 0x00000700) := by decide

/-- V-B-2. -/
theorem test_msb_index :
    after (.issue 0x00001310#32) (xs [2 ^ 63 + 1]) 3 = some (63, 0x00001000) := by decide

/-- V-S-9. -/
theorem test_msb_zero :
    after (.issue 0x00001310#32) (xs [0, 0, 7]) 3 = some (7, 0x00001081) := by decide

/-- V-B-8. -/
theorem test_lsb_index :
    after (.issue 0x00001311#32) (xs [3 * 2 ^ 112]) 3 = some (112, 0x00001100) := by decide

/-- V-B-11. -/
theorem test_lsb_zero :
    after (.issue 0x00001311#32) (xs [0, 0, 7]) 3 = some (7, 0x00001181) := by decide

/-- V-Q-8. -/
theorem test_sqrt_below_square :
    after (.issue 0x00001318#32) (xs [(2 ^ 112 - 1) ^ 2 - 1]) 3 = some (2 ^ 112 - 2, 0x00001800) := by
  set_option maxRecDepth 20000 in decide

/-- V-Q-10. -/
theorem test_sqrt_largest :
    after (.issue 0x00001318#32) (xs [2 ^ 256 - 1]) 3 = some (2 ^ 128 - 1, 0x00001800) := by
  set_option maxRecDepth 20000 in decide

/-- V-M-11. -/
theorem test_muldiv_largest_quotient :
    after (.issue 0x00321420#32) (xs [2 ^ 256 - 2, 2 ^ 255 + 2, 2 ^ 255 + 1]) 4 = some (2 ^ 256 - 1, 0x00002000) := by decide

/-- V-S-10. -/
theorem test_muldiv_zero_divisor :
    after (.issue 0x00321420#32) (xs [5, 7, 0, 9]) 4 = some (9, 0x00002082) := by decide

/-- V-M-14. -/
theorem test_muldivup_rounds_up :
    after (.issue 0x00321421#32) (xs [2 ^ 200 + 7, 2 ^ 100 + 3, 2 ^ 60 + 1]) 4 = some (0xfffffffffffffff000000000300000fffffffffcfffff000070000300001, 0x00002100) := by decide

/-- V-M-12. -/
theorem test_muldivup_rounds_over :
    after (.issue 0x00321421#32) (xs [2 ^ 256 - 2, 2 ^ 255 + 2, 2 ^ 255 + 1, 9]) 4 = some (9, 0x00002183) := by decide

/-- V-FP-ENC-2. -/
theorem test_encode_largest :
    after (.issue 0x00001230#32) (xs [2 ^ 112 - 1]) 2 = some (2 ^ 224 - 2 ^ 112, 0x00003000) := by decide

/-- V-FP-ENC-3. -/
theorem test_encode_domain :
    after (.issue 0x00001230#32) (xs [2 ^ 112, 9]) 2 = some (9, 0x00003084) := by decide

/-- V-FP-ENC-6. -/
theorem test_encode144_largest :
    after (.issue 0x00001231#32) (xs [2 ^ 144 - 1]) 2 = some (2 ^ 256 - 2 ^ 112, 0x00003100) := by decide

/-- V-FP-ENC-7. -/
theorem test_encode144_domain :
    after (.issue 0x00001231#32) (xs [2 ^ 144, 9]) 2 = some (9, 0x00003184) := by decide

/-- V-FP-DEC-2. -/
theorem test_decode_largest :
    after (.issue 0x00001232#32) (xs [2 ^ 224 - 1]) 2 = some (2 ^ 112 - 1, 0x00003200) := by decide

/-- V-FP-DEC-3. -/
theorem test_decode_overflow :
    after (.issue 0x00001232#32) (xs [2 ^ 224, 9]) 2 = some (9, 0x00003283) := by decide

/-- V-FP-DEC-5. -/
theorem test_decode144_largest :
    after (.issue 0x00001233#32) (xs [2 ^ 256 - 1]) 2 = some (2 ^ 144 - 1, 0x00003300) := by decide

/-- V-FP-DEC-6. -/
theorem test_decode144_where_decode_overflows :
    after (.issue 0x00001233#32) (xs [2 ^ 224]) 2 = some (2 ^ 112, 0x00003300) := by decide

/-- V-FP-MUL-1. -/
theorem test_fpmul_fits :
    after (.issue 0x00021334#32) (xs [3 * 2 ^ 111, 10]) 3 = some (15 * 2 ^ 112, 0x00003400) := by decide

/-- V-FP-MUL-3. -/
theorem test_fpmul_overflow :
    after (.issue 0x00021334#32) (xs [2 ^ 112, 2 ^ 144, 9]) 3 = some (9, 0x00003483) := by decide

/-- V-FP-MULI-1. -/
theorem test_muli_floor :
    after (.issue 0x00021335#32) (xs [3 * 2 ^ 111, 2 ^ 256 - 3]) 3 = some (2 ^ 256 - 5, 0x00003500) := by decide

/-- V-FP-MULI-1T. -/
theorem test_muli_trunc :
    after (.issue 0x00021335#32) (State.withParams other (xs [3 * 2 ^ 111, 2 ^ 256 - 3])) 3 = some (2 ^ 256 - 4, 0x00003500) := by decide

/-- V-FP-MULUQ-4. -/
theorem test_muluq_truncates :
    after (.issue 0x00021336#32) (xs [2 ^ 112 - 1, 2 ^ 112 - 1]) 3 = some (2 ^ 112 - 2, 0x00003600) := by decide

/-- V-FP-MULUQ-5L. -/
theorem test_muluq_lower_limit :
    after (.issue 0x00021336#32) (State.withParams other (xs [2 ^ 183, 2 ^ 183, 9])) 3 = some (9, 0x00003683) := by decide

/-- V-FP-DIVUQ-9. -/
theorem test_divuq_long_division :
    after (.issue 0x00021337#32) (xs [2 ^ 256 - 1, 2 ^ 144 + 1]) 3 = some (0xfffffffffffffffffffffffffffffffffffeffffffffffffffffffff, 0x00003700) := by decide

/-- V-FP-DIVUQ-1. -/
theorem test_divuq_zero_before_equal :
    after (.issue 0x00021337#32) (xs [0, 0, 9]) 3 = some (9, 0x00003782) := by decide

/-- V-FP-FRAC-5. -/
theorem test_fraction_large :
    after (.issue 0x00021338#32) (xs [2 ^ 143, 1]) 3 = some (2 ^ 255, 0x00003800) := by decide

/-- V-FP-FRAC-5L. -/
theorem test_fraction_lower_limit :
    after (.issue 0x00021338#32) (State.withParams other (xs [2 ^ 143, 1, 9])) 3 = some (9, 0x00003883) := by decide

/-- V-FP-RECIP-6. -/
theorem test_recip_truncates :
    after (.issue 0x00001239#32) (xs [5 * 2 ^ 111]) 2 = some (0x6666666666666666666666666666, 0x00003900) := by decide

/-- S16. -/
theorem test_recip_one :
    after (.issue 0x00001239#32) (xs [1, 9]) 2 = some (9, 0x00003983) := by decide

/-- V-FP-SQRT-6. -/
theorem test_fpsqrt_exact_path :
    after (.issue 0x0000123A#32) (xs [2 ^ 144 - 1]) 2 = some (2 ^ 128 - 1, 0x00003A00) := by
  set_option maxRecDepth 20000 in decide

/-- V-FP-SQRT-10. -/
theorem test_fpsqrt_large :
    after (.issue 0x0000123A#32) (xs [2 ^ 224 - 1]) 2 = some (0xffffffffffffffffffffffffffffffff0000000000, 0x00003A00) := by
  set_option maxRecDepth 20000 in decide

/-! ### STATUS and the host port (section 8) -/

/-- V-S-1. -/
theorem test_reset_status : replyTo .readStatus State.reset = some (.status 0#32) := by decide

/-- V-S-5: an illegal word from reset. -/
theorem test_illegal_word_from_reset : after (.issue 0x000000FF#32) State.reset 0 = some (0, 0x0000FF85) := by decide

/-- STATUS after V-S-5. -/
def illegal : State :=
  { State.reset with status := { err := .illegalOperation, sticky := true, lastop := 0xFF#8 } }

/-- V-S-6. -/
theorem test_write_status_clears_sticky : after (.writeStatus 0xFFFFFFFF#32) illegal 0 = some (0, 0x0000FF05) := by decide

/-- V-S-7. -/
theorem test_write_status_bit7_zero : after (.writeStatus 0x0000007F#32) illegal 0 = some (0, 0x0000FF85) := by decide

/-- V-S-8, its second step: a success keeps STICKY. -/
theorem test_sticky_kept :
    after (.issue 0x00001511#32)
      { xs [2 ^ 256 - 1] with status := { err := .zeroInput, sticky := true, lastop := 0x10#8 } } 5 =
      some (0, 0x00001180) := by
  set_option maxRecDepth 20000 in decide

/-- V-S-11. -/
theorem test_reset_operation : after .reset { xs [5] with status := illegal.status } 1 = some (0, 0) := by decide

/-- V-S-2, V-S-3, V-S-4. -/
theorem test_unwritten_reads_fault :
    [stopOf (.readReg 3) State.reset, stopOf (.issue 0x00021301#32) State.reset, stopOf (.issue 0x00021301#32) (xs [5])] =
      [some (.inl (.unwrittenRead 3)), some (.inl (.unwrittenRead 1)), some (.inl (.unwrittenRead 2))] := by decide

/-- V-S-5: an illegal word reads no register. -/
theorem test_illegal_word_no_fault : stopOf (.issue 0x000000FF#32) State.reset = none := by decide

/-- A bus of 32 bits. -/
def narrow (s : State) : State :=
  State.withParams { Params.default with limbWidth := .w32 } s

/-- 20_memory.md R25: limb 1 of 32 bits is bits 63 to 32. -/
theorem test_write_limb :
    after (.writeLimb 1 1 0xAABBCCDD#256) (narrow (xs [2 ^ 96 - 1])) 1 = some (0xFFFFFFFFAABBCCDDFFFFFFFF, 0) := by decide

theorem test_read_limb :
    replyTo (.readLimb 1 1) (narrow (xs [0x112233445566778899AABBCC])) = some (.limb 0x55667788#256) := by decide

/-- 20_memory.md R28: limb 8 of 32 bits does not exist. -/
theorem test_limb_out_of_range :
    stopOf (.writeLimb 1 8 0#256) (narrow State.reset) = some (.inr (.limbIndexOutOfRange 1 8)) := by decide

/-! ### The datapaths and the assembler syntax -/

/-- S6, V-Q-8, V-B-2, V-B-8, V-M-13, V-FP-DIVUQ-9 by the informative datapaths. -/
theorem test_datapaths :
    sqrtDatapath (2 ^ 256 - 1) = 2 ^ 128 - 1 ∧ sqrtDatapath ((2 ^ 112 - 1) ^ 2 - 1) = 2 ^ 112 - 2 ∧
      msbDatapath (2 ^ 63 + 1) = 63 ∧ lsbDatapath (3 * 2 ^ 112) = 112 ∧
      (muldivDatapath (2 ^ 200 + 7) (2 ^ 100 + 3) (2 ^ 60 + 1)).toOption =
        some 0xfffffffffffffff000000000300000fffffffffcfffff000070000300000 ∧
      (divuqDatapath (2 ^ 256 - 1) (2 ^ 144 + 1)).toOption =
        some 0xfffffffffffffffffffffffffffffffffffeffffffffffffffffffff := by
  set_option maxRecDepth 20000 in decide

/-- 30_encoding.md R45, R46. -/
theorem test_assembler :
    assemble "MULW x1, x5, x2, x3".toList = some (.mulw 1 5 2 3) ∧
      assemble "add x3, x1, x15 ; a comment".toList = some (.add 3 1 15) ∧
      assemble "MOV x4, x9".toList = some (.and 4 9 9) ∧
      assemble "ZERO x2, x2".toList = some (.sub 2 2 2) ∧
      assemble "ADD x3, x1".toList = none ∧ asmText (.fpsqrt 15 14) = "FPSQRT x15, x14".toList := by decide

/-! ### Witnesses: values that meet the hypotheses of the statements -/

theorem accepts_waiting (op : HostOp) (s : State) :
    Accepts (State.waiting op s) op { s with inbox := [], reply := .nothing } :=
  ⟨[], rfl, rfl⟩

/-- The step answers a next state of which the test holds. -/
def stepsTo (p : State → Bool) (o : Result) : Bool :=
  match o with
  | .next t => p t
  | .fault _ => false
  | .refused _ => false

theorem exists_of_stepsTo {p : State → Bool} {o : Result} (h : stepsTo p o = true) : ∃ t, o = .next t ∧ p t = true := by
  cases o with
  | next t => exact ⟨t, rfl, h⟩
  | fault f => cases h
  | refused r => cases h

/-- The instruction ends with this code. -/
def ends (i : Instr) (s : State) (e : ErrorCode) : Bool :=
  stepsTo (fun t => t.status.err = e) (exec i s)

theorem exists_of_ends {i : Instr} {s : State} {e : ErrorCode} (h : ends i s e = true) :
    ∃ t, exec i s = .next t ∧ t.status.err = e := by
  obtain ⟨t, ht, hp⟩ := exists_of_stepsTo h
  exact ⟨t, ht, of_decide_eq_true hp⟩

theorem witness_DecodeOfEncodedInstruction :
    (Instr.add 0 0 0).wf = true ∧ (Instr.fpsqrt 15 14).wf = true ∧ (Instr.muldiv 15 15 15 15).wf = true ∧
      (Instr.mulw 15 14 15 15).wf = true := by decide

theorem witness_EncodeOfDecodedWord :
    decodeWord 0x0E0FFF04#32 = some (.mulw 15 14 15 15) ∧ decodeWord 0x00000001#32 = some (.add 0 0 0) := by decide

theorem witness_IllegalWordRaisesIllegalOperation :
    (∃ s u, Accepts s (.issue 0x0F0FFF04#32) u ∧ legal 0x0F0FFF04#32 = false) ∧
      field 0x000000#32 0 8 = 0x00 ∧ field 0x12345608#32 0 8 = 0x08 ∧ field 0x0F#32 0 8 = 0x0F ∧ field 0x12#32 0 8 = 0x12 ∧
      field 0x17#32 0 8 = 0x17 ∧ field 0x19#32 0 8 = 0x19 ∧ field 0x1F#32 0 8 = 0x1F ∧ field 0x22#32 0 8 = 0x22 ∧
      field 0x2F#32 0 8 = 0x2F ∧ field 0x3B#32 0 8 = 0x3B ∧ field 0x3F#32 0 8 = 0x3F ∧ field 0x40#32 0 8 = 0x40 ∧
      field 0xFFFFFFFF#32 0 8 = 0xFF := ⟨⟨_, _, accepts_waiting _ State.reset, by decide⟩, by decide⟩

theorem witness_InstructionBytesLittleEndian :
    (Instr.mulw 15 14 15 15).wf = true ∧ (Instr.msb 0 0).wf = true := by decide

theorem witness_StepRunsDecodedInstruction :
    ∃ s u, Accepts s (.issue 0x0E0FFF04#32) u ∧ decodeWord 0x0E0FFF04#32 = some (.mulw 15 14 15 15) := ⟨_, _, accepts_waiting _ (xs [1]), by decide⟩

theorem witness_OnlyWritesIssuesAndResetChangeTheUnit :
    State.reset.inbox = [] ∧
      (∃ t, step (State.waiting (.writeReg 3 5#256) (xs [0, 0, 1])) = .next t ∧
        decide (t.regs ≠ (xs [0, 0, 1]).regs) = true) ∧
      (∃ t, step (State.waiting (.writeReg 3 0#256) State.reset) = .next t ∧
        decide (t.written ≠ State.reset.written) = true) ∧
      (∃ t, step (State.waiting (.issue 0#32) State.reset) = .next t ∧ decide (t.status ≠ State.reset.status) = true) := ⟨rfl, exists_of_stepsTo (p := fun t => t.regs ≠ (xs [0, 0, 1]).regs) (by decide),
    exists_of_stepsTo (p := fun t => t.written ≠ State.reset.written) (by decide),
    exists_of_stepsTo (p := fun t => t.status ≠ State.reset.status) (by decide)⟩

theorem witness_HostWritesAndReadsRegisters :
    (∃ s u, Accepts s (.writeReg 15 (-1#256)) u) ∧ ∃ s u, Accepts s (.readReg 0) u := ⟨⟨_, _, accepts_waiting _ State.reset⟩, ⟨_, _, accepts_waiting _ (xs [])⟩⟩

theorem witness_ReadStatusReturnsFields :
    ∃ s u, Accepts s .readStatus u ∧ s.status.word = 0x0000FF85#32 := ⟨_, _, accepts_waiting _ illegal, by decide⟩

theorem witness_WriteStatusClearsSticky :
    (∃ s u, Accepts s (.writeStatus 0x80#32) u ∧ s.status.sticky = true) ∧
      ∃ s u, Accepts s (.writeStatus 0x7F#32) u ∧ s.status.sticky = true := ⟨⟨_, _, accepts_waiting _ illegal, rfl⟩, ⟨_, _, accepts_waiting _ illegal, rfl⟩⟩

theorem witness_ResetClearsStatusAndUnwritesRegisters :
    ∃ s u, Accepts s .reset u ∧ s.isWritten 1 = true := ⟨_, _, accepts_waiting _ (xs [5]), by decide⟩

theorem witness_LimbIndexOutOfRangeHasNoStep :
    (∃ s u, Accepts s (.writeLimb 1 8 0#256) u ∧ 256 ≤ s.params.limbWidth.bits * 8) ∧
      (∃ s u, Accepts s (.writeLimb 1 7 0#256) u ∧ s.params.limbWidth.bits * 7 < 256) ∧
      (∃ s u, Accepts s (.readLimb 1 1) u ∧ 256 ≤ s.params.limbWidth.bits * 1) ∧
      ∃ s u, Accepts s (.readLimb 1 0) u ∧ s.params.limbWidth.bits * 0 < 256 := ⟨⟨_, _, accepts_waiting _ (narrow State.reset), by decide⟩, ⟨_, _, accepts_waiting _ (narrow State.reset), by decide⟩,
    ⟨_, _, accepts_waiting _ State.reset, by decide⟩, ⟨_, _, accepts_waiting _ State.reset, by decide⟩⟩

theorem witness_InstancesShareNothing :
    (∃ vs, Units.step 1 [xs [1], State.waiting (.writeReg 2 3#256) (xs [7])] = .next vs) ∧
      (∃ vs, Units.step 2 [xs [1], xs [7]] = .next vs) ∧
      ∃ (s : State) (q : Request) (rest : List Request), s.inbox = q :: rest ∧ q.host ≠ s.host := ⟨⟨_, rfl⟩, ⟨_, rfl⟩,
    ⟨{ State.reset with inbox := [{ host := 1, op := .reset }] }, { host := 1, op := .reset }, [], rfl, by decide⟩⟩

theorem witness_LimbTransferMovesItsBits :
    (∃ s u, Accepts s (.writeLimb 1 7 (-1#256)) u ∧ s.params.limbWidth.bits * 7 < 256) ∧
      (∃ s u, Accepts s (.readLimb 1 0) u ∧ s.params.limbWidth.bits * 0 < 256) := ⟨⟨_, _, accepts_waiting _ (narrow State.reset), by decide⟩, ⟨_, _, accepts_waiting _ State.reset, by decide⟩⟩

/-- `x1`'s limbs waiting on a bus of 128 bits. -/
def limbsWaiting (ks : List Nat) : State :=
  { State.withParams { Params.default with limbWidth := .w128 } State.reset with
    inbox := ks.map (fun k => { host := 0, op := .writeLimb 1 k (getLimb .w128 k 0x5A5A#256) }) }

theorem witness_LimbsInAnyOrderWriteTheRegister :
    ∃ s : State, ([1, 0, 1] : List Nat).all (fun k => k < s.params.limbWidth.count) = true ∧ s.parts 1 = 0#8 ∧
      s.inbox = [1, 0, 1].map (fun k => { host := s.host, op := .writeLimb 1 k (getLimb s.params.limbWidth k 0x5A5A#256) }) ∧
      (List.range s.params.limbWidth.count).all (fun k => ([1, 0, 1] : List Nat).contains k) = true := ⟨limbsWaiting [1, 0, 1], by decide, by decide, by decide, by decide⟩

theorem witness_AddResult :
    ((xs [2 ^ 256 - 2, 1]).reg 1).toNat + ((xs [2 ^ 256 - 2, 1]).reg 2).toNat < 2 ^ 256 ∧
      2 ^ 256 ≤ ((xs [2 ^ 256 - 1, 1]).reg 1).toNat + ((xs [2 ^ 256 - 1, 1]).reg 2).toNat := by decide

theorem witness_MulResult :
    ((xs [2 ^ 255, 1]).reg 1).toNat * ((xs [2 ^ 255, 1]).reg 2).toNat < 2 ^ 256 ∧
      2 ^ 256 ≤ ((xs [2 ^ 255, 2]).reg 1).toNat * ((xs [2 ^ 255, 2]).reg 2).toNat := by decide

theorem witness_FpmulResult :
    ((xs [2 ^ 255, 1]).reg 1).toNat * ((xs [2 ^ 255, 1]).reg 2).toNat < 2 ^ 256 ∧
      2 ^ 256 ≤ ((xs [2 ^ 255, 2]).reg 1).toNat * ((xs [2 ^ 255, 2]).reg 2).toNat := by decide

theorem witness_SubResult :
    ((xs [5, 5]).reg 2).toNat ≤ ((xs [5, 5]).reg 1).toNat ∧
      ((xs [4, 5]).reg 1).toNat < ((xs [4, 5]).reg 2).toNat := by decide

theorem witness_MulwResult :
    (1 : Reg) ≠ 2 ∧ (15 : Reg) = 15 := by decide

theorem witness_MsbResult :
    ((xs [1]).reg 1).toNat ≠ 0 ∧
      ((xs [2 ^ 256 - 1]).reg 1).toNat ≠ 0 ∧
      ((xs [0]).reg 1).toNat = 0 := by decide

theorem witness_LsbResult :
    ((xs [1]).reg 1).toNat ≠ 0 ∧
      ((xs [2 ^ 255]).reg 1).toNat ≠ 0 ∧
      ((xs [0]).reg 1).toNat = 0 := by decide

theorem witness_MuldivResult :
    ((xs [5, 7, 0]).reg 3).toNat = 0 ∧
      (((xs [2 ^ 256 - 2, 2 ^ 255 + 2, 2 ^ 255 + 1]).reg 3).toNat ≠ 0 ∧
        ((xs [2 ^ 256 - 2, 2 ^ 255 + 2, 2 ^ 255 + 1]).reg 1).toNat * ((xs [2 ^ 256 - 2, 2 ^ 255 + 2, 2 ^ 255 + 1]).reg 2).toNat / ((xs [2 ^ 256 - 2, 2 ^ 255 + 2, 2 ^ 255 + 1]).reg 3).toNat < 2 ^ 256) ∧
      (((xs [2 ^ 255, 2, 1]).reg 3).toNat ≠ 0 ∧ 2 ^ 256 ≤ ((xs [2 ^ 255, 2, 1]).reg 1).toNat * ((xs [2 ^ 255, 2, 1]).reg 2).toNat / ((xs [2 ^ 255, 2, 1]).reg 3).toNat) := by decide

theorem witness_MuldivupResult :
    ((xs [5, 7, 0]).reg 3).toNat = 0 ∧
      ((xs [1, 1, 2 ^ 256 - 1]).reg 3).toNat ≠ 0 ∧
      ((xs [2 ^ 256 - 2, 2 ^ 255 + 2, 2 ^ 255 + 1]).reg 3).toNat ≠ 0 ∧
      ends (.muldivup 4 1 2 3) (xs [1, 1, 2 ^ 256 - 1]) .noError = true ∧
      ends (.muldivup 4 1 2 3) (xs [2 ^ 256 - 2, 2 ^ 255 + 2, 2 ^ 255 + 1]) .overflow = true := by decide

theorem witness_MuldivOverflowsWhenHighHalfReachesDivisor :
    (4 : Reg) ≠ 5 ∧
      ((xs [2 ^ 255, 2, 1]).reg 3).toNat ≠ 0 ∧
      ((xs [2 ^ 255, 2, 2]).reg 3).toNat ≠ 0 ∧
      ends (.muldiv 6 1 2 3) (xs [2 ^ 255, 2, 1]) .overflow = true ∧
      ends (.muldiv 6 1 2 3) (xs [2 ^ 255, 2, 2]) .noError = true := by decide

theorem witness_EncodeResult :
    ((xs [2 ^ 112 - 1]).reg 1).toNat < 2 ^ 112 ∧
      2 ^ 112 ≤ ((xs [2 ^ 112]).reg 1).toNat := by decide

theorem witness_Encode144Result :
    ((xs [2 ^ 144 - 1]).reg 1).toNat < 2 ^ 144 ∧
      2 ^ 144 ≤ ((xs [2 ^ 144]).reg 1).toNat := by decide

theorem witness_DecodeResult :
    ((xs [2 ^ 224 - 1]).reg 1).toNat < 2 ^ 224 ∧
      2 ^ 224 ≤ ((xs [2 ^ 224]).reg 1).toNat := by decide

theorem witness_DecodeUndoesEncode :
    ((xs [2 ^ 112 - 1]).reg 1).toNat < 2 ^ 112 := by decide

theorem witness_MuliResult :
    (-(2 ^ 255) ≤ (-(2 ^ 255) : Int) ∧ (-(2 ^ 255) : Int) < 2 ^ 255 ∧ (-(2 ^ 255) : Int) % 2 ^ 256 = ((xs [2 ^ 112, 2 ^ 255]).reg 2).toNat) ∧
      (-(2 ^ 255) ≤ (2 ^ 254 : Int) ∧ (2 ^ 254 : Int) < 2 ^ 255 ∧ (2 ^ 254 : Int) % 2 ^ 256 = ((xs [2 ^ 113, 2 ^ 254]).reg 2).toNat) ∧
      (xs []).params.muliMode = .floor ∧ (State.withParams other (xs [])).params.muliMode = .trunc ∧
      ends (.muli 3 1 2) (xs [2 ^ 112, 2 ^ 255]) .noError = true ∧ ends (.muli 3 1 2) (xs [2 ^ 113, 2 ^ 254]) .overflow = true ∧
      ends (.muli 3 1 2) (State.withParams other (xs [2 ^ 112, 2 ^ 255 + 1])) .noError = true ∧
      ends (.muli 3 1 2) (State.withParams other (xs [2 ^ 112, 2 ^ 255])) .overflow = true := by decide

theorem witness_MuluqResult :
    ((xs [2 ^ 256 - 1, 2 ^ 112]).reg 1).toNat * ((xs [2 ^ 256 - 1, 2 ^ 112]).reg 2).toNat / 2 ^ 112 < (xs []).params.muluqLimit.bound ∧
      (xs []).params.muluqLimit.bound ≤ ((xs [2 ^ 255, 2 ^ 113]).reg 1).toNat * ((xs [2 ^ 255, 2 ^ 113]).reg 2).toNat / 2 ^ 112 ∧
      ((xs [2 ^ 224 - 1, 2 ^ 112]).reg 1).toNat * ((xs [2 ^ 224 - 1, 2 ^ 112]).reg 2).toNat / 2 ^ 112 < (State.withParams other (xs [])).params.muluqLimit.bound ∧
      (State.withParams other (xs [])).params.muluqLimit.bound ≤ ((xs [2 ^ 224, 2 ^ 112]).reg 1).toNat * ((xs [2 ^ 224, 2 ^ 112]).reg 2).toNat / 2 ^ 112 := by decide

theorem witness_DivuqResult :
    ((xs [0, 0]).reg 2).toNat = 0 ∧
      (((xs [30, 30]).reg 2).toNat ≠ 0 ∧ ((xs [30, 30]).reg 1).toNat = ((xs [30, 30]).reg 2).toNat) ∧
      (((xs [2 ^ 224 - 1, 2 ^ 112]).reg 2).toNat ≠ 0 ∧ ((xs [2 ^ 224 - 1, 2 ^ 112]).reg 1).toNat * 2 ^ 112 / ((xs [2 ^ 224 - 1, 2 ^ 112]).reg 2).toNat < 2 ^ 224) ∧
      (((xs [2 ^ 224, 2 ^ 112]).reg 2).toNat ≠ 0 ∧ 2 ^ 224 ≤ ((xs [2 ^ 224, 2 ^ 112]).reg 1).toNat * 2 ^ 112 / ((xs [2 ^ 224, 2 ^ 112]).reg 2).toNat) := by decide

theorem witness_FractionResult :
    ((xs [0, 0]).reg 2).toNat = 0 ∧
      (((xs [0, 9]).reg 2).toNat ≠ 0 ∧ ((xs [0, 9]).reg 1).toNat = 0) ∧
      (((xs [2 ^ 144 - 1, 1]).reg 2).toNat ≠ 0 ∧ ((xs [2 ^ 144 - 1, 1]).reg 1).toNat * 2 ^ 112 / ((xs [2 ^ 144 - 1, 1]).reg 2).toNat < (xs []).params.fractionLimit.bound) ∧
      (((xs [2 ^ 144, 1]).reg 2).toNat ≠ 0 ∧ (xs []).params.fractionLimit.bound ≤ ((xs [2 ^ 144, 1]).reg 1).toNat * 2 ^ 112 / ((xs [2 ^ 144, 1]).reg 2).toNat) ∧
      (((xs [2 ^ 112, 1]).reg 2).toNat ≠ 0 ∧ (State.withParams other (xs [])).params.fractionLimit.bound ≤ ((xs [2 ^ 112, 1]).reg 1).toNat * 2 ^ 112 / ((xs [2 ^ 112, 1]).reg 2).toNat) := by decide

theorem witness_RecipResult :
    ((xs [0]).reg 1).toNat = 0 ∧
      ((xs [1]).reg 1).toNat = 1 ∧
      2 ≤ ((xs [2]).reg 1).toNat := by decide

/-- FPSQRT_LARGE left open. -/
def open83 (s : State) : State :=
  State.withParams { Params.default with fpsqrtLarge := .leftOpen } s

theorem witness_FpsqrtResult :
    ((xs [2 ^ 144 - 1]).reg 1).toNat < 2 ^ 144 ∧
      (2 ^ 144 ≤ ((xs [2 ^ 144]).reg 1).toNat ∧ (xs [2 ^ 144]).params.fpsqrtLarge = .generalKnowledge) ∧
      (2 ^ 144 ≤ ((open83 (xs [2 ^ 144])).reg 1).toNat ∧ (open83 (xs [2 ^ 144])).params.fpsqrtLarge = .leftOpen) := by decide

theorem witness_FpsqrtPrecisionCeiling :
    (2 ^ 144 ≤ ((xs [2 ^ 144]).reg 1).toNat ∧ (xs [2 ^ 144]).params.fpsqrtLarge = .generalKnowledge) ∧
      2 ^ 144 ≤ ((xs [2 ^ 256 - 1]).reg 1).toNat := by decide

theorem witness_FixedPointResultBounds :
    (∃ t, exec (.encode 3 1) (xs [2 ^ 112 - 1]) = .next t ∧ t.status.err = .noError) ∧
      (∃ t, exec (.decode 3 1) (xs [2 ^ 224 - 1]) = .next t ∧ t.status.err = .noError) ∧
      (∃ t, exec (.decode144 3 1) (xs [2 ^ 256 - 1]) = .next t ∧ t.status.err = .noError) ∧
      (∃ t, exec (.muluq 3 1 2) (xs [2 ^ 256 - 1, 2 ^ 112]) = .next t ∧ t.status.err = .noError) ∧
      (∃ t, exec (.divuq 3 1 2) (xs [2 ^ 224 - 1, 2 ^ 112]) = .next t ∧ t.status.err = .noError) ∧
      (∃ t, exec (.fraction 3 1 2) (xs [2 ^ 144 - 1, 1]) = .next t ∧ t.status.err = .noError) ∧
      (∃ t, exec (.recip 3 1) (xs [2]) = .next t ∧ t.status.err = .noError) ∧
      (∃ t, exec (.fpsqrt 3 1) (xs [2 ^ 256 - 1]) = .next t ∧ t.status.err = .noError) ∧
      (xs [2 ^ 256 - 1]).params.fpsqrtLarge = .generalKnowledge := ⟨exists_of_ends (by decide),
    exists_of_ends (by decide),
    exists_of_ends (by decide),
    exists_of_ends (by decide),
    exists_of_ends (by decide),
    exists_of_ends (by decide),
    exists_of_ends (by decide),
    exists_of_ends (by decide),
    rfl⟩

theorem witness_EveryInstructionCompletes :
    (Instr.mulw 4 4 1 2).wf = false ∧ (Instr.mulw 4 5 1 2).wf = true := by decide

theorem witness_ErrorChangesOnlyStatus :
    ∃ t, exec (.mulw 4 4 1 2) (xs []) = .next t ∧ t.status.err ≠ .noError := by
  obtain ⟨t, ht, he⟩ := exists_of_ends (i := .mulw 4 4 1 2) (s := xs []) (e := .illegalOperation) (by decide)
  exact ⟨t, ht, by rw [he]; decide⟩

theorem witness_SuccessWritesDestinationsOnly :
    ∃ t, exec (.mulw 4 5 1 2) (xs [3, 4]) = .next t ∧ t.status.err = .noError := exists_of_ends (by decide)

theorem witness_ResultsDependOnSourcesAndParametersOnly :
    (illegal.setReg 1 5#256).params = (xs [5, 6]).params ∧
      (∀ r ∈ sources (.msb 3 1), (illegal.setReg 1 5#256).reg r = (xs [5, 6]).reg r) ∧
      (∀ r ∈ sources (.msb 3 1), (xs [5]).reg r = (xs [5, 6]).reg r) ∧
      (xs [5]).status.sticky = (xs [5, 6]).status.sticky ∧ ends (.msb 3 1) (xs [5, 6]) .noError = true := by decide

theorem witness_RepeatedInstructionGivesSameState :
    ∀ r ∈ dests (.mulw 4 5 1 2), r ∉ sources (.mulw 4 5 1 2) := by decide

theorem witness_StepKeepsStatusConsistent :
    (∃ s t, StatusConsistent s ∧ step s = .next t ∧ s.status.lastop = 0#8) ∧
      (∃ s t, StatusConsistent s ∧ step s = .next t ∧ s.status.err = .illegalOperation) ∧
      ∃ s t, StatusConsistent s ∧ step s = .next t ∧ s.status.lastop = 0x10#8 := ⟨⟨State.reset, _, .inl ⟨rfl, rfl⟩, rfl, rfl⟩, ⟨illegal, _, .inr (.inl rfl), rfl, rfl⟩,
    ⟨{ State.reset with status := { err := .zeroInput, sticky := true, lastop := 0x10#8 } }, _,
      .inr (.inr ⟨⟨(0x10#8, .r2), by decide, rfl⟩, .inr (by decide)⟩), rfl, rfl⟩⟩

theorem witness_StickyChangesOnlyByErrorsAndHost :
    (illegal.status.sticky = true ∧
        ∃ t, step (State.waiting (.writeStatus 0x80#32) illegal) = .next t ∧ (!t.status.sticky) = true) ∧
      (illegal.status.sticky = true ∧ ∃ t, step (State.waiting .reset illegal) = .next t ∧ (!t.status.sticky) = true) ∧
      (State.reset.status.sticky = false ∧
        ∃ t, step (State.waiting (.issue 0xFF#32) State.reset) = .next t ∧ t.status.sticky = true) := ⟨⟨rfl, exists_of_stepsTo (p := fun t => !t.status.sticky) (by decide)⟩,
    ⟨rfl, exists_of_stepsTo (p := fun t => !t.status.sticky) (by decide)⟩,
    ⟨rfl, exists_of_stepsTo (p := fun t => t.status.sticky) (by decide)⟩⟩

theorem witness_RegistersBecomeWrittenOnlyByWrites :
    (State.reset.isWritten 3 = false ∧
        ∃ t, step (State.waiting (.writeReg 3 0#256) State.reset) = .next t ∧ t.isWritten 3 = true) ∧
      ((xs []).isWritten 3 = false ∧ ∃ t, step (State.waiting (.writeLimb 3 0 0#256) (xs [])) = .next t ∧ t.isWritten 3 = true) ∧
      ((xs [1, 2]).isWritten 3 = false ∧
        ∃ t, step (State.waiting (.issue 0x00021301#32) (xs [1, 2])) = .next t ∧ t.isWritten 3 = true) ∧
      ((xs [1]).isWritten 1 = true ∧ ∃ t, step (State.waiting .reset (xs [1])) = .next t ∧ (!t.isWritten 1) = true) := ⟨⟨by decide, exists_of_stepsTo (p := fun t => t.isWritten 3) (by decide)⟩,
    ⟨by decide, exists_of_stepsTo (p := fun t => t.isWritten 3) (by decide)⟩,
    ⟨by decide, exists_of_stepsTo (p := fun t => t.isWritten 3) (by decide)⟩,
    ⟨by decide, exists_of_stepsTo (p := fun t => !t.isWritten 1) (by decide)⟩⟩

theorem witness_StrictStepFaultsOnUnwrittenReads :
    (∃ s u, Accepts s (.issue 0x00021301#32) u ∧ decodeWord 0x00021301#32 = some (.add 3 1 2) ∧ s.isWritten 1 = true ∧
        s.isWritten 2 = false) ∧
      (∃ s u, Accepts s (.issue 0x00021301#32) u ∧ decodeWord 0x00021301#32 = some (.add 3 1 2) ∧
        ∀ r ∈ sources (.add 3 1 2), s.isWritten r = true) ∧
      (∃ s u, Accepts s (.issue 0xFF#32) u ∧ decodeWord 0xFF#32 = none) ∧
      (∃ s u, Accepts s (.readReg 3) u ∧ s.isWritten 3 = false) ∧ (∃ s u, Accepts s (.readReg 1) u ∧ s.isWritten 1 = true) ∧
      (∃ s u, Accepts s (.readLimb 3 7) u ∧ s.params.limbWidth.bits * 7 < 256 ∧ s.isWritten 3 = false) ∧
      (∃ s u, Accepts s (.readLimb 1 7) u ∧ s.params.limbWidth.bits * 7 < 256 ∧ s.isWritten 1 = true) ∧
      (∃ s u, Accepts s (.readLimb 3 8) u ∧ 256 ≤ s.params.limbWidth.bits * 8) ∧
      ((∃ s u, Accepts s (.writeReg 3 0#256) u) ∧ (∃ s u, Accepts s (.writeLimb 3 0 0#256) u) ∧ (∃ s u, Accepts s .readStatus u) ∧
        (∃ s u, Accepts s (.writeStatus 0#32) u) ∧ ∃ s u, Accepts s .reset u) ∧
      State.reset.inbox = [] ∧
      ∃ (s : State) (q : Request) (rest : List Request), s.inbox = q :: rest ∧ q.host ≠ s.host := ⟨⟨_, _, accepts_waiting _ (xs [5]), by decide, by decide, by decide⟩,
    ⟨_, _, accepts_waiting _ (xs [5, 6]), by decide, by decide⟩, ⟨_, _, accepts_waiting _ State.reset, by decide⟩,
    ⟨_, _, accepts_waiting _ State.reset, by decide⟩, ⟨_, _, accepts_waiting _ (xs [5]), by decide⟩,
    ⟨_, _, accepts_waiting _ (narrow State.reset), by decide, by decide⟩,
    ⟨_, _, accepts_waiting _ (narrow (xs [5])), by decide, by decide⟩,
    ⟨_, _, accepts_waiting _ (narrow State.reset), by decide⟩,
    ⟨⟨_, _, accepts_waiting _ State.reset⟩, ⟨_, _, accepts_waiting _ State.reset⟩, ⟨_, _, accepts_waiting _ State.reset⟩,
      ⟨_, _, accepts_waiting _ State.reset⟩, ⟨_, _, accepts_waiting _ State.reset⟩⟩, rfl,
    ⟨{ State.reset with inbox := [{ host := 1, op := .readReg 3 }] }, { host := 1, op := .readReg 3 }, [], rfl, by decide⟩⟩

/-- `x1` written, and a state that differs from it in the unwritten `x2`, each with MSB x3, x1 waiting. -/
def sideA : State :=
  State.waiting (.issue 0x00001310#32) (xs [5])

/-- See `sideA`. -/
def sideB : State :=
  { sideA with regs := sideA.regs.set 2 77#256 }

theorem sides_agree : AgreeOnWritten sideA sideB where
  written := rfl
  status := rfl
  port := ⟨rfl, rfl, rfl, rfl, rfl⟩
  regs := by
    intro r b _ hw
    by_cases h : r = 2
    · subst h
      have h0 : sideA.parts 2 = 0#8 := by decide
      rw [h0] at hw
      simp at hw
    · clear hw
      have hr : sideB.reg r = sideA.reg r := by
        revert r
        decide
      rw [hr]

theorem witness_UnwrittenValuesNeverShow :
    AgreeOnWritten sideA sideB ∧ sideA ≠ sideB ∧ ∃ t, strictStep sideA = .next t ∧ t.isWritten 3 = true := ⟨sides_agree, by decide, exists_of_stepsTo (p := fun t => t.isWritten 3) (by decide)⟩

theorem witness_IssueIndexCountsIssuedWords :
    (∃ t, step (State.waiting (.issue 0xFF#32) State.reset) = .next t ∧ decide (t.position = 1) = true) ∧
      (∃ t, step (State.waiting (.writeReg 0 0#256) State.reset) = .next t ∧ decide (t.position = 0) = true) ∧
      ∃ t, step State.reset = .next t ∧ decide (t.position = 0) = true := ⟨exists_of_stepsTo (p := fun t => t.position = 1) (by decide), exists_of_stepsTo (p := fun t => t.position = 0) (by decide),
    exists_of_stepsTo (p := fun t => t.position = 0) (by decide)⟩

theorem witness_BitScanDatapathsComputeIndices :
    0 < 1 ∧ 1 < 2 ^ 256 ∧ 0 < 2 ^ 256 - 1 ∧ 2 ^ 256 - 1 < 2 ^ 256 := by decide

theorem witness_NewtonDatapathComputesIsqrt :
    0 < 2 ^ 256 ∧ 2 ^ 256 - 1 < 2 ^ 256 := by decide

theorem witness_MuldivDatapathComputesFloor :
    2 ^ 256 - 1 < 2 ^ 256 ∧ (0 < 2 ^ 256 - 1 ∧ (2 ^ 256 - 1) * (2 ^ 256 - 1) / (2 ^ 256 - 1) < 2 ^ 256) ∧
      (0 < 2 ^ 256 - 2 ∧ 2 ^ 256 - 2 < 2 ^ 256 ∧ 2 ^ 256 ≤ (2 ^ 256 - 1) * (2 ^ 256 - 1) / (2 ^ 256 - 2)) := by decide

theorem witness_DivuqDatapathComputesFloor :
    2 ^ 256 - 1 < 2 ^ 256 ∧ (0 < 2 ^ 144 + 1 ∧ (2 ^ 256 - 1) * 2 ^ 112 / (2 ^ 144 + 1) < 2 ^ 224) ∧
      (0 < 2 ^ 144 - 1 ∧ 2 ^ 224 ≤ (2 ^ 256 - 1) * 2 ^ 112 / (2 ^ 144 - 1)) := by decide

end Sys2Proof.Tests
end

section
/-! PROOF. Determinism of an instruction (00_scope.md R12): one outcome applied to two states gives the same STATUS update and
the same destination values. -/

namespace Sys2Proof.Machine

/-- The error code an outcome leaves in STATUS does not come from the state (R90, R91). -/
theorem applyOutcome_err_congr (op : Byte) (o : Except ErrorCode (List (Reg × Word))) (s u : State) :
    (applyOutcome op o u).status.err = (applyOutcome op o s).status.err := by
  cases o <;> rfl

/-- STICKY after an outcome comes from the outcome and STICKY before it (R90, R91). -/
theorem applyOutcome_sticky_congr (op : Byte) (o : Except ErrorCode (List (Reg × Word))) {s u : State}
    (h : u.status.sticky = s.status.sticky) :
    (applyOutcome op o u).status.sticky = (applyOutcome op o s).status.sticky := by
  cases o with
  | ok ws =>
    have hs := (writes_port ws s).2
    have hu := (writes_port ws u).2
    simp only [applyOutcome, State.status_complete, Status.sticky_completed, hs, hu, h]
  | error e => rfl

/-- An instruction that ends with no error in STATUS has a successful outcome: NONE is no error to raise (R87). -/
theorem outcome_eq_ok_of_noError {i : Instr} {p : Params} {x : Reg → Word} {s : State}
    (h : (applyOutcome i.opcode (outcome i p x) s).status.err = .noError) : ∃ ws, outcome i p x = .ok ws := by
  cases ho : outcome i p x with
  | ok ws => exact ⟨ws, rfl⟩
  | error e =>
    rw [ho] at h
    have he : e = .noError := h
    rcases outcome_error ho with ⟨-, -, hne, -⟩ | ⟨-, hill⟩
    · exact absurd he hne
    · exact absurd (hill.symm.trans he) (by decide)

/-- The destinations of a successful outcome hold the same values whatever the state was (R12). -/
theorem applyOutcome_reg_dest_congr {i : Instr} {p : Params} {x : Reg → Word} {ws : List (Reg × Word)} (s u : State)
    (h : outcome i p x = .ok ws) {r : Reg} (hr : r ∈ dests i) :
    (applyOutcome i.opcode (outcome i p x) u).reg r = (applyOutcome i.opcode (outcome i p x) s).reg r := by
  rw [h]
  exact writes_reg_mem ws u s r (outcome_dests h ▸ hr)

/-- Agreement on the parameters and on the sources makes two states' outcomes one (R12). -/
theorem outcome_eq_of_agree {i : Instr} {s u : State} (hp : u.params = s.params)
    (hx : ∀ r ∈ sources i, u.reg r = s.reg r) : outcome i u.params u.reg = outcome i s.params s.reg := by
  rw [hp]
  exact outcome_congr i s.params u.reg s.reg hx

/-- Settles O48: `exec` applies an outcome that the sources and the parameters determine, so both states get the same one. -/
theorem resultsDependOnSourcesAndParametersOnly : Obligations.ResultsDependOnSourcesAndParametersOnly := by
  intro i s u hp hx
  have hu : exec i u = .next (applyOutcome i.opcode (outcome i s.params s.reg) u) := by
    rw [exec_eq_outcome, outcome_eq_of_agree hp hx]
  refine ⟨_, _, exec_eq_outcome i s, hu, applyOutcome_err_congr .., ?lastop, applyOutcome_sticky_congr _ _, ?results⟩
  case lastop => rw [applyOutcome_lastop, applyOutcome_lastop]
  case results =>
    intro herr r hr
    obtain ⟨ws, hok⟩ := outcome_eq_ok_of_noError herr
    exact applyOutcome_reg_dest_congr s u hok hr

end Sys2Proof.Machine
end

section
/-! PROOF. What one operation of the host port does, said once (10_state.md R19 to R22, 20_memory.md R28): an equation for each
operation, and the inversion of `step` that the rules over every step go through. -/

namespace Sys2Proof.Machine

/-! ### One equation for each operation -/

@[simp] theorem serve_writeReg (r : Reg) (v : Word) (s : State) : serve (.writeReg r v) s = .next (s.setReg r v) := rfl

@[simp] theorem serve_readReg (r : Reg) (s : State) :
    serve (.readReg r) s = .next { s with reply := .word (s.reg r) } := rfl

@[simp] theorem serve_issue (w : InstrWord) (s : State) : serve (.issue w) s = issueWord w s := rfl

@[simp] theorem serve_readStatus (s : State) :
    serve .readStatus s = .next { s with reply := .status s.status.word } := rfl

@[simp] theorem serve_writeStatus (v : BitVec 32) (s : State) :
    serve (.writeStatus v) s = .next { s with status := s.status.hostWrite v } := rfl

@[simp] theorem serve_reset (s : State) : serve .reset s = .next s.hardReset := rfl

theorem serve_writeLimb {k : Nat} {s : State} (r : Reg) (v : Word) (h : k < s.params.limbWidth.count) :
    serve (.writeLimb r k v) s = .next (s.setLimb r k v) := if_pos h

theorem serve_readLimb {k : Nat} {s : State} (r : Reg) (h : k < s.params.limbWidth.count) :
    serve (.readLimb r k) s = .next { s with reply := .limb (getLimb s.params.limbWidth k (s.reg r)) } := if_pos h

/-- A limb write that has a step had its index in range (R28). -/
theorem serve_writeLimb_next {r : Reg} {k : Nat} {v : Word} {s t : State} (h : serve (.writeLimb r k v) s = .next t) :
    k < s.params.limbWidth.count ∧ t = s.setLimb r k v := by
  by_cases hk : k < s.params.limbWidth.count
  · rw [serve_writeLimb r v hk] at h
    cases h
    exact ⟨hk, rfl⟩
  · simp [serve, hk] at h

/-- A limb read that has a step had its index in range (R28). -/
theorem serve_readLimb_next {r : Reg} {k : Nat} {s t : State} (h : serve (.readLimb r k) s = .next t) :
    k < s.params.limbWidth.count ∧ t = { s with reply := .limb (getLimb s.params.limbWidth k (s.reg r)) } := by
  by_cases hk : k < s.params.limbWidth.count
  · rw [serve_readLimb r hk] at h
    cases h
    exact ⟨hk, rfl⟩
  · simp [serve, hk] at h

/-! ### ISSUE -/

theorem issueWord_illegal {w : InstrWord} (h : decodeWord w = none) (s : State) :
    issueWord w s = .next (({ s with position := s.position + 1 } : State).raise .illegalOperation (opcodeOf w)) := by
  simp only [issueWord, h]

theorem issueWord_legal {w : InstrWord} {i : Instr} (h : decodeWord w = some i) (s : State) :
    issueWord w s = exec i { s with position := s.position + 1 } := by
  simp only [issueWord, h]

/-- Everything an ISSUE can do, with the index advanced first (R15, R22): raise ILLEGAL_OPERATION, or apply the outcome of the
instruction. -/
theorem issueWord_next {w : InstrWord} {s t : State} (h : issueWord w s = .next t) :
    (decodeWord w = none ∧
        t = ({ s with position := s.position + 1 } : State).raise .illegalOperation (opcodeOf w)) ∨
      ∃ i, decodeWord w = some i ∧
        t = applyOutcome i.opcode (outcome i s.params s.reg) { s with position := s.position + 1 } := by
  cases hd : decodeWord w with
  | none =>
    rw [issueWord_illegal hd] at h
    cases h
    exact .inl ⟨rfl, rfl⟩
  | some i =>
    rw [issueWord_legal hd, exec_eq_outcome] at h
    cases h
    exact .inr ⟨i, rfl, rfl⟩

/-- NONE is no error an instruction raises (R87). -/
theorem outcome_error_ne_noError {i : Instr} {p : Params} {x : Reg → Word} {e : ErrorCode}
    (h : outcome i p x = .error e) : e ≠ .noError := by
  rcases outcome_error h with ⟨-, -, hne, -⟩ | ⟨-, rfl⟩
  · exact hne
  · decide

/-! ### A step that has a next state -/

/-- A step that answers a next state was idle or served the oldest operation. -/
theorem step_next {s t : State} (h : step s = .next t) :
    (s.inbox = [] ∧ t = s) ∨ ∃ q rest, s.inbox = q :: rest ∧ serve q.op (s.accept rest) = .next t := by
  rcases step_cases s with ⟨hi, hs⟩ | ⟨q, rest, hi, -, hs⟩ | ⟨q, rest, -, -, hs⟩
  · rw [hs] at h
    cases h
    exact .inl ⟨hi, rfl⟩
  · exact .inr ⟨q, rest, hi, hs ▸ h⟩
  · rw [hs] at h
    cases h

/-- Settles O7: the port serves the ISSUE, whose word is legal. -/
theorem stepRunsDecodedInstruction : Obligations.StepRunsDecodedInstruction := by
  intro s u w i hacc hdec
  rw [step_of_accepts hacc, serve_issue, issueWord_legal hdec]

/-! ### The issue index, the parameters and the host's number (R15) -/

/-- Serving an operation keeps the parameters and the host's number. -/
theorem serve_params_host {op : HostOp} {s t : State} (h : serve op s = .next t) :
    t.params = s.params ∧ t.host = s.host := by
  cases op with
  | writeLimb r k v => obtain ⟨-, rfl⟩ := serve_writeLimb_next h; exact ⟨rfl, rfl⟩
  | readLimb r k => obtain ⟨-, rfl⟩ := serve_readLimb_next h; exact ⟨rfl, rfl⟩
  | issue w =>
    rcases issueWord_next h with ⟨-, rfl⟩ | ⟨i, -, rfl⟩
    · exact ⟨rfl, rfl⟩
    · have hport := applyOutcome_port i.opcode (outcome i s.params s.reg) { s with position := s.position + 1 }
      exact ⟨hport.params, hport.host⟩
  | _ => cases h; exact ⟨rfl, rfl⟩

/-- An ISSUE advances the index by one, legal or not (R15). -/
theorem issueWord_position {w : InstrWord} {s t : State} (h : issueWord w s = .next t) :
    t.position = s.position + 1 := by
  rcases issueWord_next h with ⟨-, rfl⟩ | ⟨i, -, rfl⟩
  · rfl
  · exact (applyOutcome_port _ _ _).position

/-- No other operation moves the index. -/
theorem serve_position {op : HostOp} {s t : State} (h : serve op s = .next t) (hop : ∀ w, op ≠ .issue w) :
    t.position = s.position := by
  cases op with
  | writeLimb r k v => obtain ⟨-, rfl⟩ := serve_writeLimb_next h; rfl
  | readLimb r k => obtain ⟨-, rfl⟩ := serve_readLimb_next h; rfl
  | issue w => exact absurd rfl (hop w)
  | _ => cases h; rfl

/-- Settles O56: the index moves with an ISSUE alone; parameters and host stay under every operation. -/
theorem issueIndexCountsIssuedWords : Obligations.IssueIndexCountsIssuedWords := by
  intro s t h
  rcases step_next h with ⟨hi, rfl⟩ | ⟨q, rest, hi, hserve⟩
  · refine ⟨rfl, rfl, ?_, fun _ => rfl⟩
    rintro ⟨q, rest, w, hq, -⟩
    exact absurd (hi.symm.trans hq) (List.cons_ne_nil q rest).symm
  · obtain ⟨hparams, hhost⟩ := serve_params_host hserve
    refine ⟨hparams, hhost, ?_, fun hno => serve_position (s := s.accept rest) hserve fun w => hno q rest w hi⟩
    rintro ⟨q', rest', w, hi', hw⟩
    obtain ⟨rfl, rfl⟩ := List.cons.inj (hi.symm.trans hi')
    rw [hw, serve_issue] at hserve
    exact issueWord_position (s := s.accept rest) hserve

end Sys2Proof.Machine
end

section
/-! PROOF. STATUS (10_state.md R18, R21): the value the host reads, WRITE_STATUS, the invariant that every step keeps, and what
sets and clears STICKY. -/

namespace Sys2Proof.Machine

/-! ### The value of STATUS the host reads (R18) -/

theorem ErrorCode.code_le (e : ErrorCode) : e.code ≤ 5 := by
  cases e <;> decide

/-- STATUS as a number: nothing is cut off at 32 bits (R18). -/
theorem Status.word_toNat (s : Status) :
    s.word.toNat = s.err.code + s.sticky.toNat * 2 ^ 7 + s.lastop.toNat * 2 ^ 8 := by
  have herr := s.err.code_le
  have hsticky := s.sticky.toNat_le
  have hlastop := s.lastop.isLt
  rw [Status.word, BitVec.toNat_ofNat]
  omega

/-- A field of the STATUS value as a number (R18). -/
theorem Status.word_extract_toNat (s : Status) (lo len : Nat) :
    (s.word.extractLsb' lo len).toNat =
      (s.err.code + s.sticky.toNat * 2 ^ 7 + s.lastop.toNat * 2 ^ 8) / 2 ^ lo % 2 ^ len := by
  rw [BitVec.extractLsb'_toNat, Status.word_toNat, Nat.shiftRight_eq_div_pow]

/-- Bit 7 of the STATUS value is STICKY (R18). -/
theorem Status.word_sticky (s : Status) : s.word.getLsbD 7 = s.sticky := by
  have herr := s.err.code_le
  have hdiv : s.word.toNat / 2 ^ 7 % 2 = s.sticky.toNat := by
    have hsticky := s.sticky.toNat_le
    rw [Status.word_toNat]
    omega
  rw [BitVec.getLsbD, Nat.testBit_eq_decide_div_mod_eq, hdiv]
  cases s.sticky <;> rfl

/-- Settles O10: READ_STATUS replies `Status.word`, whose fields are those of R18. -/
theorem readStatusReturnsFields : Obligations.ReadStatusReturnsFields := by
  refine ⟨fun s u hacc => ?_, rfl, rfl, rfl, rfl, rfl, rfl⟩
  have hstatus : u.status = s.status := by
    obtain ⟨rest, -, rfl⟩ := hacc
    rfl
  have herr := s.status.err.code_le
  have hsticky := s.status.sticky.toNat_le
  have hlastop := s.status.lastop.isLt
  refine ⟨s.status.word, ?step, ?err, herr, ?low, s.status.word_sticky, ?lastop, ?high⟩
  case step => rw [step_of_accepts hacc, serve_readStatus, hstatus]
  case err =>
    rw [Status.word_extract_toNat]
    omega
  case low =>
    apply BitVec.eq_of_toNat_eq
    rw [Status.word_extract_toNat, BitVec.toNat_ofNat]
    omega
  case lastop =>
    apply BitVec.eq_of_toNat_eq
    rw [Status.word_extract_toNat]
    omega
  case high =>
    apply BitVec.eq_of_toNat_eq
    rw [Status.word_extract_toNat, BitVec.toNat_ofNat]
    omega

/-- `WRITE_STATUS(v)` clears STICKY exactly when `v[7]` is 1 (R21). -/
theorem Status.sticky_hostWrite_eq_ite (v : BitVec 32) (s : Status) :
    (s.hostWrite v).sticky = if v.getLsbD 7 then false else s.sticky := by
  rw [Status.sticky_hostWrite]
  cases v.getLsbD 7
  · exact Bool.and_true _
  · exact Bool.and_false _

/-- Settles O11: WRITE_STATUS is `Status.hostWrite`, which touches STICKY alone. -/
theorem writeStatusClearsSticky : Obligations.WriteStatusClearsSticky := by
  intro s u v hacc
  refine ⟨_, step_of_accepts hacc, ?_⟩
  obtain ⟨rest, -, rfl⟩ := hacc
  exact ⟨Status.sticky_hostWrite_eq_ite v s.status, rfl, rfl, fun _ _ => ⟨rfl, rfl⟩, ⟨rfl, rfl, rfl, rfl, rfl⟩⟩

/-! ### STATUS stays consistent (R87, R90, R91, R104) -/

/-- Consistency speaks of ERR and LASTOP alone. -/
theorem StatusConsistent.congr {s t : State} (hs : StatusConsistent s) (herr : t.status.err = s.status.err)
    (hlastop : t.status.lastop = s.status.lastop) : StatusConsistent t := by
  simpa only [StatusConsistent, herr, hlastop] using hs

/-- Settles O50: STATUS is 0 after reset. -/
theorem statusConsistentAtReset : Obligations.StatusConsistentAtReset :=
  .inl ⟨rfl, rfl⟩

/-- Every instruction has its row in the opcode map (R42). -/
theorem opcode_mem_opcodeMap (i : Instr) : (i.opcode, i.format) ∈ opcodeMap := by
  cases i <;> simp [Instr.opcode, Instr.format, opcodeMap]

/-- Any instruction, with whatever outcome, leaves STATUS consistent (R87, R90, R91). -/
theorem statusConsistent_applyOutcome (i : Instr) (p : Params) (x : Reg → Word) (s : State) :
    StatusConsistent (applyOutcome i.opcode (outcome i p x) s) := by
  have hrow : ∃ row ∈ opcodeMap, row.1 = i.opcode := ⟨_, opcode_mem_opcodeMap i, rfl⟩
  cases ho : outcome i p x with
  | ok ws => exact .inr (.inr ⟨hrow, .inl rfl⟩)
  | error e =>
    rcases outcome_error ho with ⟨-, hlisted, -, -⟩ | ⟨-, rfl⟩
    · exact .inr (.inr ⟨hrow, .inr hlisted⟩)
    · exact .inr (.inl rfl)

theorem statusConsistent_issueWord {w : InstrWord} {s t : State} (h : issueWord w s = .next t) :
    StatusConsistent t := by
  rcases issueWord_next h with ⟨-, rfl⟩ | ⟨i, -, rfl⟩
  · exact .inr (.inl rfl)
  · exact statusConsistent_applyOutcome ..

/-- ISSUE and RESET make STATUS consistent; the other operations leave ERR and LASTOP (R18, R21). -/
theorem serve_keeps_statusConsistent {op : HostOp} {s t : State} (hs : StatusConsistent s)
    (h : serve op s = .next t) : StatusConsistent t := by
  cases op with
  | issue w => exact statusConsistent_issueWord h
  | reset => cases h; exact statusConsistentAtReset.congr rfl rfl
  | writeLimb r k v => obtain ⟨-, rfl⟩ := serve_writeLimb_next h; exact hs.congr rfl rfl
  | readLimb r k => obtain ⟨-, rfl⟩ := serve_readLimb_next h; exact hs.congr rfl rfl
  | _ => cases h; exact hs.congr rfl rfl

/-- Settles O51: an idle step changes nothing, and every operation of the port keeps STATUS consistent. -/
theorem stepKeepsStatusConsistent : Obligations.StepKeepsStatusConsistent := by
  intro s t hs h
  rcases step_next h with ⟨-, rfl⟩ | ⟨q, rest, -, hserve⟩
  · exact hs
  · exact serve_keeps_statusConsistent (hs.congr (t := s.accept rest) rfl rfl) hserve

/-! ### STICKY (R18, R21, R90, R91, R95) -/

/-- After an outcome STICKY is as before with ERR NONE, or 1 with an error. -/
theorem applyOutcome_sticky (i : Instr) (p : Params) (x : Reg → Word) (s : State) :
    (applyOutcome i.opcode (outcome i p x) s).status.sticky = s.status.sticky ∨
      (applyOutcome i.opcode (outcome i p x) s).status.sticky = true ∧
        (applyOutcome i.opcode (outcome i p x) s).status.err ≠ .noError := by
  cases ho : outcome i p x with
  | ok ws =>
    have hwrites := (writes_port ws s).2
    left
    simp only [applyOutcome, State.status_complete, Status.sticky_completed, hwrites]
  | error e => exact .inr ⟨rfl, outcome_error_ne_noError ho⟩

/-- What an operation can do to STICKY: leave it, set it with an error of an ISSUE, or clear it by WRITE_STATUS or RESET. -/
theorem serve_sticky {op : HostOp} {s t : State} (h : serve op s = .next t) :
    t.status.sticky = s.status.sticky ∨
      (t.status.sticky = true ∧ (∃ w, op = .issue w) ∧ t.status.err ≠ .noError) ∨
      (t.status.sticky = false ∧ ((∃ v, op = .writeStatus v ∧ v.getLsbD 7 = true) ∨ op = .reset)) := by
  cases op with
  | issue w =>
    rcases issueWord_next h with ⟨-, rfl⟩ | ⟨i, -, rfl⟩
    · exact .inr (.inl ⟨rfl, ⟨w, rfl⟩, by simp⟩)
    · rcases applyOutcome_sticky i s.params s.reg { s with position := s.position + 1 } with hkept | ⟨hset, herr⟩
      · exact .inl hkept
      · exact .inr (.inl ⟨hset, ⟨w, rfl⟩, herr⟩)
  | writeStatus v =>
    cases h
    by_cases hv : v.getLsbD 7 = true
    · exact .inr (.inr ⟨(Status.sticky_hostWrite_eq_ite v _).trans (if_pos hv), .inl ⟨v, rfl, hv⟩⟩)
    · exact .inl ((Status.sticky_hostWrite_eq_ite v _).trans (if_neg hv))
  | reset => cases h; exact .inr (.inr ⟨rfl, .inr rfl⟩)
  | writeLimb r k v => obtain ⟨-, rfl⟩ := serve_writeLimb_next h; exact .inl rfl
  | readLimb r k => obtain ⟨-, rfl⟩ := serve_readLimb_next h; exact .inl rfl
  | _ => cases h; exact .inl rfl

/-- Settles O52: of the three things an operation can do to STICKY, each change of the bit leaves one. -/
theorem stickyChangesOnlyByErrorsAndHost : Obligations.StickyChangesOnlyByErrorsAndHost := by
  intro s t h
  rcases step_next h with ⟨-, rfl⟩ | ⟨q, rest, hi, hserve⟩
  · constructor <;> intro hbefore hafter <;> simp [hbefore] at hafter
  · rcases serve_sticky hserve with hkept | ⟨hset, ⟨w, hw⟩, herr⟩ | ⟨hclear, hby⟩
    · rw [State.status_accept] at hkept
      constructor <;> intro hbefore hafter <;> simp [hkept, hbefore] at hafter
    · exact ⟨fun _ h0 => by simp [hset] at h0, fun _ _ => ⟨q, rest, w, hi, hw, herr⟩⟩
    · exact ⟨fun _ _ => ⟨q, rest, hi, hby⟩, fun _ h1 => by simp [hclear] at h1⟩

end Sys2Proof.Machine
end

section
/-! PROOF. Registers and what of them has been written (10_state.md R17, R19, R20): host transfers of whole registers, what makes
a register written and unwritten, and limbs in any order. -/

namespace Sys2Proof.Machine

/-! ### Whole registers -/

/-- Writing a register leaves the others. -/
theorem sameRegsBut_setReg (s : State) (r : Reg) (v : Word) : SameRegsBut [r] s (s.setReg r v) := by
  intro q hq
  have hne : q ≠ r := by simpa using hq
  exact ⟨s.reg_setReg_other v hne, s.parts_setReg_other v hne⟩

/-- Settles O9: WRITE_REG is `setReg`, and READ_REG answers with the register. -/
theorem hostWritesAndReadsRegisters : Obligations.HostWritesAndReadsRegisters := by
  constructor
  · intro s u r v hacc
    exact ⟨u.setReg r v, step_of_accepts hacc, u.reg_setReg_same r v, u.isWritten_setReg_same r v,
      sameRegsBut_setReg u r v, rfl, ⟨rfl, rfl, rfl, rfl, rfl⟩⟩
  · intro s u r hacc
    rw [step_of_accepts hacc, serve_readReg]
    obtain ⟨rest, -, rfl⟩ := hacc
    rfl

/-! ### What makes a register written (R17, R20) -/

theorem State.isWritten_eq_true_iff (s : State) (r : Reg) : s.isWritten r = true ↔ s.parts r = 0xFF#8 :=
  decide_eq_true_iff

theorem State.isWritten_congr {s t : State} {r : Reg} (h : t.parts r = s.parts r) : t.isWritten r = s.isWritten r := by
  rw [State.isWritten, State.isWritten, h]

/-- A limb write leaves a written register written (log entry 3). -/
theorem State.isWritten_setLimb (s : State) {q : Reg} (r : Reg) (k : Nat) (v : Word) (h : s.isWritten q = true) :
    (s.setLimb r k v).isWritten q = true := by
  by_cases hq : q = r
  · subst hq
    rw [State.isWritten_eq_true_iff] at h ⊢
    rw [State.parts_setLimb_same, h]
    exact BitVec.allOnes_or
  · rw [State.isWritten_congr (s.parts_setLimb_other k v hq), h]

/-- An instruction makes its destinations written, when it ends without error, and leaves all other registers (R90, R91). -/
theorem applyOutcome_isWritten (i : Instr) (p : Params) (x : Reg → Word) (s : State) (r : Reg) :
    (applyOutcome i.opcode (outcome i p x) s).isWritten r = s.isWritten r ∨
      (r ∈ dests i ∧ (applyOutcome i.opcode (outcome i p x) s).status.err = .noError ∧
        (applyOutcome i.opcode (outcome i p x) s).isWritten r = true) := by
  cases ho : outcome i p x with
  | ok ws =>
    rw [← outcome_dests ho]
    by_cases hr : r ∈ ws.map Prod.fst
    · exact .inr ⟨hr, rfl, (State.isWritten_eq_true_iff _ r).2 (writes_parts_mem ws s r hr)⟩
    · exact .inl (State.isWritten_congr (writes_reg_other ws s r hr).2)
  | error e => exact .inl rfl

/-- What an operation can do to a register's being written: leave it, make it written by a host write or as a destination, or
make it unwritten by RESET. -/
theorem serve_isWritten {op : HostOp} {s t : State} (h : serve op s = .next t) (r : Reg) :
    t.isWritten r = s.isWritten r ∨
      (((∃ v, op = .writeReg r v) ∨ (∃ k v, op = .writeLimb r k v) ∨
          (∃ w i, op = .issue w ∧ decodeWord w = some i ∧ r ∈ dests i ∧ t.status.err = .noError)) ∧
        (s.isWritten r = true → t.isWritten r = true)) ∨
      op = .reset := by
  cases op with
  | writeReg q v =>
    cases h
    by_cases hr : r = q
    · subst hr
      exact .inr (.inl ⟨.inl ⟨v, rfl⟩, fun _ => s.isWritten_setReg_same r v⟩)
    · exact .inl (State.isWritten_congr (s.parts_setReg_other v hr))
  | writeLimb q k v =>
    obtain ⟨-, rfl⟩ := serve_writeLimb_next h
    by_cases hr : r = q
    · subst hr
      exact .inr (.inl ⟨.inr (.inl ⟨k, v, rfl⟩), s.isWritten_setLimb r k v⟩)
    · exact .inl (State.isWritten_congr (s.parts_setLimb_other k v hr))
  | issue w =>
    rcases issueWord_next h with ⟨-, rfl⟩ | ⟨i, hd, rfl⟩
    · exact .inl rfl
    · rcases applyOutcome_isWritten i s.params s.reg { s with position := s.position + 1 } r with
        hkept | ⟨hdest, herr, hwritten⟩
      · exact .inl hkept
      · exact .inr (.inl ⟨.inr (.inr ⟨w, i, rfl, hd, hdest, herr⟩), fun _ => hwritten⟩)
  | reset => exact .inr (.inr rfl)
  | readLimb q k => obtain ⟨-, rfl⟩ := serve_readLimb_next h; exact .inl rfl
  | _ => cases h; exact .inl rfl

/-- RESET leaves no register written (R104). -/
theorem serve_reset_isWritten {s t : State} (h : serve .reset s = .next t) (r : Reg) : t.isWritten r = false := by
  cases h
  exact s.isWritten_hardReset r

/-- Settles O53: of the three things an operation can do, each change leaves one. -/
theorem registersBecomeWrittenOnlyByWrites : Obligations.RegistersBecomeWrittenOnlyByWrites := by
  intro s t r h
  rcases step_next h with ⟨-, rfl⟩ | ⟨q, rest, hi, hserve⟩
  · constructor <;> intro hbefore hafter <;> simp [hbefore] at hafter
  · rcases serve_isWritten hserve r with hkept | ⟨hby, hstays⟩ | hreset
    · rw [State.isWritten_accept] at hkept
      constructor <;> intro hbefore hafter <;> simp [hkept, hbefore] at hafter
    · exact ⟨fun _ _ => ⟨q, rest, hi, hby⟩, fun hbefore hafter => by simp [hstays hbefore] at hafter⟩
    · have hunwritten := serve_reset_isWritten (hreset ▸ hserve) r
      exact ⟨fun _ hafter => by simp [hunwritten] at hafter, fun _ _ => ⟨q, rest, hi, hreset⟩⟩

/-! ### Limbs in any order (R20, R25) -/

/-- Limb `k` covers the 32-bit part `j` of a register. -/
def CoversPart (w : LimbWidth) (k j : Nat) : Prop :=
  w.bits * k ≤ 32 * j ∧ 32 * j < w.bits * k + w.bits

theorem limbParts_getLsbD_iff {w : LimbWidth} {k j : Nat} (hk : k < w.count) (hj : j < 8) :
    (limbParts w k).getLsbD j = true ↔ CoversPart w k j := by
  rw [limbParts_getLsbD w k j hk hj, decide_eq_true_iff, CoversPart]

/-- A limb is whole 32-bit parts: a bit lies in it exactly when the bit's part does (R25). -/
theorem coversPart_div_iff (w : LimbWidth) (k b : Nat) :
    CoversPart w k (b / 32) ↔ w.bits * k ≤ b ∧ b < w.bits * k + w.bits := by
  cases w <;> simp only [CoversPart, LimbWidth.bits] <;> omega

/-- All parts are covered exactly when all limbs are there: every part lies in one limb, and every limb has a first part. -/
theorem all_parts_covered_iff {w : LimbWidth} {ks : List Nat} (hks : ∀ k ∈ ks, k < w.count) :
    (∀ j < 8, ∃ k ∈ ks, CoversPart w k j) ↔ ∀ k, k < w.count → k ∈ ks := by
  constructor
  · intro hcov k hk
    have hrange := (limb_in_range w k).1 hk
    obtain ⟨k', hmem, hk'⟩ := hcov (w.bits * k / 32) (by omega)
    have heq : k' = k := by
      cases w <;> simp only [CoversPart, LimbWidth.bits] at hk' <;> omega
    exact heq ▸ hmem
  · intro hall j hj
    refine ⟨32 * j / w.bits, hall _ ?_, ?_⟩ <;> cases w <;>
      simp only [CoversPart, LimbWidth.bits, LimbWidth.count] <;> omega

theorem State.isWritten_iff_getLsbD (s : State) (r : Reg) :
    s.isWritten r = true ↔ ∀ j < 8, (s.parts r).getLsbD j = true := by
  have hones : ∀ j < 8, (0xFF#8).getLsbD j = true := by decide
  rw [State.isWritten_eq_true_iff]
  constructor
  · intro h
    rwa [h]
  · intro h
    exact BitVec.eq_of_getLsbD_eq fun j hj => (h j hj).trans (hones j hj).symm

/-- What of a register has been written holds the bits of `v`. -/
def HoldsWrittenPartsOf (s : State) (r : Reg) (v : Word) : Prop :=
  ∀ b < 256, (s.parts r).getLsbD (b / 32) = true → (s.reg r).getLsbD b = v.getLsbD b

/-- A wholly written register that holds the written parts of a value holds the value. -/
theorem HoldsWrittenPartsOf.reg_eq {s : State} {r : Reg} {v : Word} (h : HoldsWrittenPartsOf s r v)
    (hw : s.isWritten r = true) : s.reg r = v :=
  BitVec.eq_of_getLsbD_eq fun b hb => h b hb ((s.isWritten_iff_getLsbD r).1 hw (b / 32) (by omega))

/-- After a limb write the limb's parts are written too. -/
theorem State.parts_setLimb_getLsbD_iff (s : State) (r : Reg) (v : Word) {k j : Nat}
    (hk : k < s.params.limbWidth.count) (hj : j < 8) :
    ((s.setLimb r k v).parts r).getLsbD j = true ↔
      (s.parts r).getLsbD j = true ∨ CoversPart s.params.limbWidth k j := by
  rw [State.parts_setLimb_same, BitVec.getLsbD_or, Bool.or_eq_true, limbParts_getLsbD_iff hk hj]

/-- A bit of the register after a limb write (R25). -/
theorem State.reg_setLimb_getLsbD (s : State) (r : Reg) (k : Nat) (v : Word) {b : Nat} (hb : b < 256) :
    ((s.setLimb r k v).reg r).getLsbD b =
      if s.params.limbWidth.bits * k ≤ b ∧ b < s.params.limbWidth.bits * k + s.params.limbWidth.bits then
        v.getLsbD (b - s.params.limbWidth.bits * k)
      else (s.reg r).getLsbD b := by
  rw [State.reg_setLimb_same, putLimb_getLsbD _ _ _ _ _ hb]

/-- One more limb of the value: what has been written still holds the value's bits. -/
theorem HoldsWrittenPartsOf.setLimb {s : State} {r : Reg} {v : Word} {k : Nat} (h : HoldsWrittenPartsOf s r v)
    (hk : k < s.params.limbWidth.count) :
    HoldsWrittenPartsOf (s.setLimb r k (getLimb s.params.limbWidth k v)) r v := by
  intro b hb hpart
  rw [State.reg_setLimb_getLsbD _ _ _ _ hb]
  rw [State.parts_setLimb_getLsbD_iff _ _ _ hk (by omega), coversPart_div_iff] at hpart
  by_cases hin : s.params.limbWidth.bits * k ≤ b ∧ b < s.params.limbWidth.bits * k + s.params.limbWidth.bits
  · have hlt : b - s.params.limbWidth.bits * k < s.params.limbWidth.bits := by omega
    have hidx : s.params.limbWidth.bits * k + (b - s.params.limbWidth.bits * k) = b := by omega
    rw [if_pos hin, getLimb_getLsbD, hidx, decide_eq_true hlt, Bool.and_true]
  · rw [if_neg hin]
    exact h b hb (hpart.resolve_right hin)

/-- A limb write leaves the other registers. -/
theorem sameRegsBut_setLimb (s : State) (r : Reg) (k : Nat) (v : Word) : SameRegsBut [r] s (s.setLimb r k v) := by
  intro q hq
  have hne : q ≠ r := by simpa using hq
  exact ⟨s.reg_setLimb_other k v hne, s.parts_setLimb_other k v hne⟩

theorem SameRegsBut.trans {ds : List Reg} {s t u : State} (hst : SameRegsBut ds s t) (htu : SameRegsBut ds t u) :
    SameRegsBut ds s u :=
  fun r hr => ⟨(htu r hr).1.trans (hst r hr).1, (htu r hr).2.trans (hst r hr).2⟩

/-- The host's transfers of the limbs `ks` of a value. -/
def limbWrites (s : State) (r : Reg) (v : Word) (ks : List Nat) : List Request :=
  ks.map fun k => { host := s.host, op := .writeLimb r k (getLimb s.params.limbWidth k v) }

/-- `t` is `s` after the limbs `ks` of `v` have been written to `r`. -/
structure LimbsWritten (r : Reg) (v : Word) (ks : List Nat) (s t : State) : Prop where
  parts  : ∀ j < 8, (t.parts r).getLsbD j = true ↔
    (s.parts r).getLsbD j = true ∨ ∃ k ∈ ks, CoversPart s.params.limbWidth k j
  holds  : HoldsWrittenPartsOf s r v → HoldsWrittenPartsOf t r v
  regs   : SameRegsBut [r] s t
  status : t.status = s.status
  inbox  : t.inbox = []

/-- A step on a waiting limb write of the port's own host. -/
theorem step_limbWrite {s : State} {r : Reg} {k : Nat} {v : Word} {rest : List Request}
    (hk : k < s.params.limbWidth.count) (hi : s.inbox = { host := s.host, op := .writeLimb r k v } :: rest) :
    step s = .next ((s.accept rest).setLimb r k v) := by
  have hacc : Accepts s (.writeLimb r k v) (s.accept rest) := ⟨rest, hi, rfl⟩
  rw [step_of_accepts hacc]
  exact serve_writeLimb r v hk

theorem limbWrites_cons (s : State) (r : Reg) (v : Word) (k : Nat) (ks : List Nat) :
    limbWrites s r v (k :: ks) =
      { host := s.host, op := .writeLimb r k (getLimb s.params.limbWidth k v) } :: limbWrites s r v ks := rfl

/-- A step first, then the rest of the run. -/
theorem run_succ_of_step {M : Host.Core} {s t : M.State} {n : Nat} (h : M.step s = .next t) :
    M.run (n + 1) s = M.run n t := by
  simp only [Host.Core.run, h]

/-- Running the transfers, by induction on them. -/
theorem run_limbWrites (r : Reg) (v : Word) (ks : List Nat) (s : State) (hks : ∀ k ∈ ks, k < s.params.limbWidth.count)
    (hi : s.inbox = limbWrites s r v ks) :
    ∃ t : State, Host.Core.run Sys2Proof.core ks.length s = .next t ∧ LimbsWritten r v ks s t := by
  induction ks generalizing s with
  | nil => exact ⟨s, rfl, ⟨by simp, id, fun _ _ => ⟨rfl, rfl⟩, rfl, hi⟩⟩
  | cons k ks ih =>
    have hk := hks k List.mem_cons_self
    rw [limbWrites_cons] at hi
    obtain ⟨t, hrun, ht⟩ := ih ((s.accept (limbWrites s r v ks)).setLimb r k (getLimb s.params.limbWidth k v))
      (fun k' hk' => hks k' (List.mem_cons_of_mem k hk')) rfl
    refine ⟨t, ?run, ?parts, ?holds, (sameRegsBut_setLimb (s.accept _) r k _).trans ht.regs, ht.status, ht.inbox⟩
    case run => exact (run_succ_of_step (M := Sys2Proof.core) (step_limbWrite hk hi)).trans hrun
    case parts =>
      intro j hj
      rw [ht.parts j hj, State.parts_setLimb_getLsbD_iff (s.accept _) r _ hk hj, or_assoc, List.exists_mem_cons_iff]
      rfl
    case holds =>
      intro h
      exact ht.holds (HoldsWrittenPartsOf.setLimb (s := s.accept _) h hk)

/-- Settles O16: from a register of which no part is written, the written parts are those of the limbs transferred. -/
theorem limbsInAnyOrderWriteTheRegister : Obligations.LimbsInAnyOrderWriteTheRegister := by
  intro s r v ks hks hunwritten hi
  obtain ⟨t, hrun, ht⟩ := run_limbWrites r v ks s hks hi
  have hparts : ∀ j < 8, (t.parts r).getLsbD j = true ↔ ∃ k ∈ ks, CoversPart s.params.limbWidth k j := by
    intro j hj
    rw [ht.parts j hj, hunwritten]
    simp
  have hwritten : t.isWritten r = true ↔ ∀ k, k < s.params.limbWidth.count → k ∈ ks := by
    rw [State.isWritten_iff_getLsbD, ← all_parts_covered_iff hks]
    exact forall₂_congr hparts
  have hholds : HoldsWrittenPartsOf t r v := by
    refine ht.holds fun b _ hpart => ?_
    rw [hunwritten] at hpart
    simp at hpart
  exact ⟨t, hrun, hwritten, fun hall => hholds.reg_eq (hwritten.2 hall), ht.regs, ht.status, ht.inbox⟩

end Sys2Proof.Machine
end

section
/-! PROOF. The machine with the spec's model fault (10_state.md R17, R20, R89): when it stops, and that up to there the value of an
unwritten register never shows. -/

namespace Sys2Proof.Machine

/-! ### When the strict machine stops -/

theorem serve_ne_fault (op : HostOp) (s : State) (f : Fault) : serve op s ≠ .fault f := by
  cases op with
  | issue w =>
    cases hd : decodeWord w with
    | none => simp [issueWord_illegal hd]
    | some i => simp [issueWord_legal hd, exec_eq_outcome]
  | writeLimb r k v => by_cases hk : k < s.params.limbWidth.count <;> simp [serve, hk]
  | readLimb r k => by_cases hk : k < s.params.limbWidth.count <;> simp [serve, hk]
  | _ => simp

/-- The machine without the model fault has no fault (log entry 1). -/
theorem step_ne_fault (s : State) (f : Fault) : step s ≠ .fault f := by
  rcases step_cases s with ⟨-, hs⟩ | ⟨q, rest, -, -, hs⟩ | ⟨q, rest, -, -, hs⟩
  · simp [hs]
  · rw [hs]
    exact serve_ne_fault q.op _ f
  · simp [hs]

/-- The strict machine stops exactly with the unwritten read of the next operation. -/
theorem strictStep_eq_fault_iff (s : State) (r : Reg) :
    strictStep s = .fault (.unwrittenRead r) ↔ s.unwrittenRead = some r := by
  cases hr : s.unwrittenRead with
  | some q => simp [strictStep_of_some hr]
  | none => simp [strictStep_of_none hr, step_ne_fault]

/-- Where the strict machine has a next state, nothing unwritten was read and `step` answers the same. -/
theorem strictStep_eq_next_iff (s t : State) :
    strictStep s = .next t ↔ s.unwrittenRead = none ∧ step s = .next t := by
  cases hr : s.unwrittenRead with
  | some q => simp [strictStep_of_some hr]
  | none => simp [strictStep_of_none hr]

theorem unwrittenReadOf_issue_illegal {w : InstrWord} (h : decodeWord w = none) (s : State) :
    unwrittenReadOf (.issue w) s = none := by
  simp only [unwrittenReadOf, h]

theorem unwrittenReadOf_issue_legal {w : InstrWord} {i : Instr} (h : decodeWord w = some i) (s : State) :
    unwrittenReadOf (.issue w) s = s.firstUnwritten (sources i) := by
  simp only [unwrittenReadOf, h]

theorem unwrittenReadOf_readLimb {k : Nat} {s : State} (r : Reg) (h : k < s.params.limbWidth.count) :
    unwrittenReadOf (.readLimb r k) s = s.firstUnwritten [r] := if_pos h

theorem unwrittenReadOf_readLimb_outOfRange {k : Nat} {s : State} (r : Reg) (h : ¬k < s.params.limbWidth.count) :
    unwrittenReadOf (.readLimb r k) s = none := if_neg h

/-- A list of registers of which none is unwritten is read without a fault. -/
theorem strictStep_of_all_written {s : State} {rs : List Reg} (h : s.unwrittenRead = s.firstUnwritten rs)
    (hw : ∀ r ∈ rs, s.isWritten r = true) : strictStep s = step s :=
  strictStep_of_none (h.trans ((s.firstUnwritten_eq_none_iff rs).2 hw))

/-- A read of one register stops exactly when the register is unwritten (R17). -/
theorem strictStep_single_read {s : State} {r : Reg} (h : s.unwrittenRead = s.firstUnwritten [r]) :
    (s.isWritten r = false → strictStep s = .fault (.unwrittenRead r)) ∧
      (s.isWritten r = true → strictStep s = step s) := by
  constructor
  · intro hr
    rw [strictStep_eq_fault_iff, h, State.firstUnwritten_eq_some_iff]
    exact ⟨[], [], rfl, by simp, hr⟩
  · intro hr
    exact strictStep_of_all_written h (by simpa using hr)

/-- Settles O54: each operation's unwritten read, and `strictStep` from it. -/
theorem strictStepFaultsOnUnwrittenReads : Obligations.StrictStepFaultsOnUnwrittenReads := by
  refine ⟨?legal, ?illegal, ?readReg, ?readLimb, ?others, ?idle, ?second⟩
  case legal =>
    intro s u w i hacc hd
    have hread := (State.unwrittenRead_of_accepts hacc).trans (unwrittenReadOf_issue_legal hd s)
    refine ⟨fun r => ?_, strictStep_of_all_written hread⟩
    rw [strictStep_eq_fault_iff, hread, State.firstUnwritten_eq_some_iff]
  case illegal =>
    intro s u w hacc hd
    exact strictStep_of_none ((State.unwrittenRead_of_accepts hacc).trans (unwrittenReadOf_issue_illegal hd s))
  case readReg =>
    intro s u r hacc
    exact strictStep_single_read (State.unwrittenRead_of_accepts hacc)
  case readLimb =>
    intro s u r k hacc
    have hread := State.unwrittenRead_of_accepts hacc
    have hin (hk : s.params.limbWidth.bits * k < 256) :=
      strictStep_single_read (hread.trans (unwrittenReadOf_readLimb r ((limb_in_range _ k).2 hk)))
    refine ⟨fun hk => (hin hk).1, fun hk => (hin hk).2, fun hk => strictStep_of_none (hread.trans ?_)⟩
    exact unwrittenReadOf_readLimb_outOfRange r (mt (limb_in_range _ k).1 (Nat.not_lt.2 hk))
  case others =>
    intro s u op hacc hop
    refine strictStep_of_none ((State.unwrittenRead_of_accepts hacc).trans ?_)
    rcases hop with ⟨r, v, rfl⟩ | ⟨r, k, v, rfl⟩ | rfl | ⟨v, rfl⟩ | rfl <;> rfl
  case idle =>
    intro s hi
    exact strictStep_of_none (by simp [State.unwrittenRead, hi])
  case second =>
    intro s q rest hi hq
    exact strictStep_of_none (by simp [State.unwrittenRead, hi, hq])

/-! ### What two states that agree on the written bits have in common -/

theorem AgreeOnWritten.parts_eq {s u : State} (h : AgreeOnWritten s u) (r : Reg) : u.parts r = s.parts r := by
  rw [State.parts, State.parts, h.written]

theorem AgreeOnWritten.isWritten_eq {s u : State} (h : AgreeOnWritten s u) (r : Reg) :
    u.isWritten r = s.isWritten r :=
  State.isWritten_congr (h.parts_eq r)

/-- A written register holds one value in both. -/
theorem AgreeOnWritten.reg_eq {s u : State} (h : AgreeOnWritten s u) {r : Reg} (hw : s.isWritten r = true) :
    u.reg r = s.reg r :=
  BitVec.eq_of_getLsbD_eq fun b hb => h.regs r b hb ((s.isWritten_iff_getLsbD r).1 hw (b / 32) (by omega))

theorem AgreeOnWritten.firstUnwritten_eq {s u : State} (h : AgreeOnWritten s u) (rs : List Reg) :
    u.firstUnwritten rs = s.firstUnwritten rs := by
  simp only [State.firstUnwritten, h.isWritten_eq]

theorem AgreeOnWritten.unwrittenReadOf_eq {s u : State} (h : AgreeOnWritten s u) (op : HostOp) :
    unwrittenReadOf op u = unwrittenReadOf op s := by
  cases op <;> simp only [unwrittenReadOf, h.firstUnwritten_eq, h.port.params]

/-- Both have the same unwritten read next. -/
theorem AgreeOnWritten.unwrittenRead_eq {s u : State} (h : AgreeOnWritten s u) : u.unwrittenRead = s.unwrittenRead := by
  simp only [State.unwrittenRead, h.port.inbox, h.port.host, h.unwrittenReadOf_eq]

/-! ### What keeps them in agreement -/

/-- Updates that leave the registers alone keep the agreement when STATUS and the port come out the same. -/
theorem AgreeOnWritten.of_same_regs {s u s' u' : State} (h : AgreeOnWritten s u) (hsr : s'.regs = s.regs)
    (hsw : s'.written = s.written) (hur : u'.regs = u.regs) (huw : u'.written = u.written)
    (hstatus : u'.status = s'.status) (hport : SamePort s' u') : AgreeOnWritten s' u' where
  written := by rw [huw, hsw, h.written]
  status := hstatus
  port := hport
  regs := by
    intro r b hb hpart
    rw [State.parts, hsw] at hpart
    rw [State.reg, State.reg, hur, hsr]
    exact h.regs r b hb hpart

theorem AgreeOnWritten.accept {s u : State} (h : AgreeOnWritten s u) (rest : List Request) :
    AgreeOnWritten (s.accept rest) (u.accept rest) :=
  h.of_same_regs rfl rfl rfl rfl h.status ⟨h.port.position, h.port.host, rfl, rfl, h.port.params⟩

theorem AgreeOnWritten.withReply {s u : State} (h : AgreeOnWritten s u) {x y : Reply} (hxy : y = x) :
    AgreeOnWritten { s with reply := x } { u with reply := y } :=
  h.of_same_regs rfl rfl rfl rfl h.status ⟨h.port.position, h.port.host, h.port.inbox, hxy, h.port.params⟩

theorem AgreeOnWritten.withStatus {s u : State} (h : AgreeOnWritten s u) (f : Status → Status) :
    AgreeOnWritten { s with status := f s.status } { u with status := f u.status } :=
  h.of_same_regs rfl rfl rfl rfl (congrArg f h.status)
    ⟨h.port.position, h.port.host, h.port.inbox, h.port.reply, h.port.params⟩

theorem AgreeOnWritten.advance {s u : State} (h : AgreeOnWritten s u) :
    AgreeOnWritten { s with position := s.position + 1 } { u with position := u.position + 1 } :=
  h.of_same_regs rfl rfl rfl rfl h.status
    ⟨congrArg (· + 1) h.port.position, h.port.host, h.port.inbox, h.port.reply, h.port.params⟩

theorem AgreeOnWritten.complete {s u : State} (h : AgreeOnWritten s u) (op : Byte) :
    AgreeOnWritten (s.complete op) (u.complete op) :=
  h.withStatus (Status.completed op)

theorem AgreeOnWritten.raise {s u : State} (h : AgreeOnWritten s u) (e : ErrorCode) (op : Byte) :
    AgreeOnWritten (s.raise e op) (u.raise e op) :=
  h.withStatus (Status.raised e op)

/-- RESET writes the same registers whatever was there. -/
theorem AgreeOnWritten.hardReset {s u : State} (h : AgreeOnWritten s u) :
    AgreeOnWritten s.hardReset u.hardReset where
  written := rfl
  status := rfl
  port := ⟨h.port.position, h.port.host, h.port.inbox, h.port.reply, h.port.params⟩
  regs := fun _ _ _ _ => rfl

/-- The same value written to a register of both. -/
theorem AgreeOnWritten.setReg {s u : State} (h : AgreeOnWritten s u) (r : Reg) (v : Word) :
    AgreeOnWritten (s.setReg r v) (u.setReg r v) where
  written := by rw [State.setReg, State.setReg, h.written]
  status := h.status
  port := ⟨h.port.position, h.port.host, h.port.inbox, h.port.reply, h.port.params⟩
  regs := by
    intro q b hb hpart
    by_cases hq : q = r
    · subst hq
      rw [State.reg_setReg_same, State.reg_setReg_same]
    · rw [State.parts_setReg_other s v hq] at hpart
      rw [State.reg_setReg_other u v hq, State.reg_setReg_other s v hq]
      exact h.regs q b hb hpart

/-- The same limb written to a register of both: inside the limb the bits are the limb's, outside it those there before. -/
theorem AgreeOnWritten.setLimb {s u : State} (h : AgreeOnWritten s u) (r : Reg) {k : Nat} (v : Word)
    (hk : k < s.params.limbWidth.count) : AgreeOnWritten (s.setLimb r k v) (u.setLimb r k v) where
  written := by rw [State.setLimb, State.setLimb, h.written, h.parts_eq, h.port.params]
  status := h.status
  port := ⟨h.port.position, h.port.host, h.port.inbox, h.port.reply, h.port.params⟩
  regs := by
    intro q b hb hpart
    by_cases hq : q = r
    · subst hq
      rw [State.parts_setLimb_getLsbD_iff s q v hk (by omega), coversPart_div_iff] at hpart
      rw [State.reg_setLimb_getLsbD u q k v hb, State.reg_setLimb_getLsbD s q k v hb, h.port.params]
      split_ifs with hin
      · rfl
      · exact h.regs q b hb (hpart.resolve_right hin)
    · rw [State.parts_setLimb_other s k v hq] at hpart
      rw [State.reg_setLimb_other u k v hq, State.reg_setLimb_other s k v hq]
      exact h.regs q b hb hpart

/-- One outcome applied to both. -/
theorem agreeOnWritten_applyOutcome {s u : State} (h : AgreeOnWritten s u) (op : Byte)
    (o : Except ErrorCode (List (Reg × Word))) :
    AgreeOnWritten (applyOutcome op o s) (applyOutcome op o u) := by
  cases o with
  | error e => exact h.raise e op
  | ok ws =>
    refine AgreeOnWritten.complete ?_ op
    induction ws generalizing s u with
    | nil => exact h
    | cons w ws ih => exact ih (h.setReg w.1 w.2)

/-- An ISSUE that reads no unwritten register has one outcome in both (R12, R17). -/
theorem agreeOnWritten_issueWord {s u s' : State} {w : InstrWord} (h : AgreeOnWritten s u)
    (hread : unwrittenReadOf (.issue w) s = none) (hs : issueWord w s = .next s') :
    ∃ u', issueWord w u = .next u' ∧ AgreeOnWritten s' u' := by
  rcases issueWord_next hs with ⟨hd, rfl⟩ | ⟨i, hd, rfl⟩
  · exact ⟨_, issueWord_illegal hd u, h.advance.raise _ _⟩
  · rw [unwrittenReadOf_issue_legal hd, State.firstUnwritten_eq_none_iff] at hread
    have hout : outcome i u.params u.reg = outcome i s.params s.reg :=
      outcome_eq_of_agree h.port.params fun r hr => h.reg_eq (hread r hr)
    refine ⟨_, (issueWord_legal hd u).trans (exec_eq_outcome i _), ?_⟩
    have hadv := agreeOnWritten_applyOutcome h.advance i.opcode (outcome i s.params s.reg)
    rwa [← hout] at hadv ⊢

/-- An operation that reads no unwritten register keeps the agreement, its reply included. -/
theorem agreeOnWritten_serve {op : HostOp} {s u s' : State} (h : AgreeOnWritten s u)
    (hread : unwrittenReadOf op s = none) (hs : serve op s = .next s') :
    ∃ u', serve op u = .next u' ∧ AgreeOnWritten s' u' := by
  have hreg {r : Reg} (hr : s.firstUnwritten [r] = none) : u.reg r = s.reg r :=
    h.reg_eq ((s.firstUnwritten_eq_none_iff [r]).1 hr r List.mem_cons_self)
  cases op with
  | writeReg r v => cases hs; exact ⟨_, rfl, h.setReg r v⟩
  | readReg r =>
    cases hs
    exact ⟨_, rfl, h.withReply (by rw [hreg hread])⟩
  | writeLimb r k v =>
    obtain ⟨hk, rfl⟩ := serve_writeLimb_next hs
    exact ⟨_, serve_writeLimb r v (h.port.params ▸ hk), h.setLimb r v hk⟩
  | readLimb r k =>
    obtain ⟨hk, rfl⟩ := serve_readLimb_next hs
    rw [unwrittenReadOf_readLimb r hk] at hread
    exact ⟨_, serve_readLimb r (h.port.params ▸ hk), h.withReply (by rw [hreg hread, h.port.params])⟩
  | issue w => exact agreeOnWritten_issueWord h hread hs
  | readStatus =>
    cases hs
    exact ⟨_, rfl, h.withReply (by rw [h.status])⟩
  | writeStatus v => cases hs; exact ⟨_, rfl, h.withStatus (Status.hostWrite v)⟩
  | reset => cases hs; exact ⟨_, rfl, h.hardReset⟩

/-- Settles O55: the strict machine's next operation reads written registers alone, and serving it keeps the agreement. -/
theorem unwrittenValuesNeverShow : Obligations.UnwrittenValuesNeverShow := by
  intro s u s' h hs
  obtain ⟨hread, hstep⟩ := (strictStep_eq_next_iff s s').1 hs
  suffices hu : ∃ u', step u = .next u' ∧ AgreeOnWritten s' u' by
    rwa [strictStep_of_none (h.unwrittenRead_eq.trans hread)]
  rcases step_cases s with ⟨hi, hidle⟩ | ⟨q, rest, hi, hq, hserve⟩ | ⟨q, rest, -, -, hrefused⟩
  · rw [hidle] at hstep
    cases hstep
    exact ⟨u, by simp [step, h.port.inbox, hi], h⟩
  · have hsacc : Accepts s q.op (s.accept rest) := ⟨rest, by rw [hi, ← hq], rfl⟩
    have huacc : Accepts u q.op (u.accept rest) := ⟨rest, by rw [h.port.inbox, hi, h.port.host, ← hq], rfl⟩
    rw [step_of_accepts huacc]
    rw [State.unwrittenRead_of_accepts hsacc] at hread
    exact agreeOnWritten_serve (h.accept rest) hread (hserve.symm.trans hstep)
  · rw [hrefused] at hstep
    cases hstep

end Sys2Proof.Machine
end

section
/-! PROOF. An instruction word as bytes (20_memory.md R26), and the instruction the decoder reads from them (30_encoding.md R37,
R38, R42). -/

namespace Sys2Proof

/-! ### The bytes of a word (R26) -/

/-- A bit of the byte that stands at bit `lo` of a word. -/
theorem byte_getLsbD (w : InstrWord) (lo : Nat) {j : Nat} (hj : j < 8) :
    (BitVec.ofNat 8 (field w lo 8)).getLsbD j = w.getLsbD (lo + j) := by
  rw [BitVec.getLsbD_ofNat, field, Nat.testBit_mod_two_pow, Nat.testBit_div_two_pow]
  simp [hj, BitVec.getLsbD, Nat.add_comm]

/-- A word's four bytes carry the word. -/
theorem wordOfBytes_fields (w : InstrWord) :
    wordOfBytes (BitVec.ofNat 8 (field w 0 8)) (BitVec.ofNat 8 (field w 8 8)) (BitVec.ofNat 8 (field w 16 8))
      (BitVec.ofNat 8 (field w 24 8)) = w := by
  apply BitVec.eq_of_toNat_eq
  have := w.isLt
  simp only [wordOfBytes, field, BitVec.toNat_ofNat]
  omega

/-- The decoder on a word's bytes reads the word and leaves the bytes after it. -/
theorem decodeBytes_bytesOfWord (w : InstrWord) (rest : List Byte) :
    decodeBytes (bytesOfWord w ++ rest) = (decodeWord w).map fun i => (i, rest) := by
  simp only [bytesOfWord, List.cons_append, List.nil_append, decodeBytes, wordOfBytes_fields]

/-! ### Decoding an encoded instruction, format by format (R38) -/

/-- A packed word is read by its opcode's row of the map. -/
theorem decodeWord_packFields (op : Byte) (rd rs1 rs2 rs3 rd2 : Reg) :
    decodeWord (packFields op rd rs1 rs2 rs3 rd2) = decodeOpcode op.toNat (packFields op rd rs1 rs2 rs3 rd2) := by
  rw [decodeWord, (packFields_fields op rd rs1 rs2 rs3 rd2).1]

theorem decodeWord_packFields_r2 {op : Byte} {mk : Reg → Reg → Instr} (hrow : decodeOpcode op.toNat = decodeR2 mk)
    (rd rs1 : Reg) : decodeWord (packFields op rd rs1 0 0 0) = some (mk rd rs1) := by
  rw [decodeWord_packFields, hrow, decodeR2_packFields]

theorem decodeWord_packFields_r3 {op : Byte} {mk : Reg → Reg → Reg → Instr}
    (hrow : decodeOpcode op.toNat = decodeR3 mk) (rd rs1 rs2 : Reg) :
    decodeWord (packFields op rd rs1 rs2 0 0) = some (mk rd rs1 rs2) := by
  rw [decodeWord_packFields, hrow, decodeR3_packFields]

theorem decodeWord_packFields_r4 {op : Byte} {mk : Reg → Reg → Reg → Reg → Instr}
    (hrow : decodeOpcode op.toNat = decodeR4 mk) (rd rs1 rs2 rs3 : Reg) :
    decodeWord (packFields op rd rs1 rs2 rs3 0) = some (mk rd rs1 rs2 rs3) := by
  rw [decodeWord_packFields, hrow, decodeR4_packFields]

theorem decodeWord_packFields_rw {op : Byte} {mk : Reg → Reg → Reg → Reg → Instr}
    (hrow : decodeOpcode op.toNat = decodeRW mk) {rd rd2 : Reg} (rs1 rs2 : Reg) (hne : rd ≠ rd2) :
    decodeWord (packFields op rd rs1 rs2 0 rd2) = some (mk rd rd2 rs1 rs2) := by
  rw [decodeWord_packFields, hrow, decodeRW_packFields mk op rs1 rs2 hne]

/-- Decoding undoes encoding: an instruction's row of the map is its opcode's, and the row's format its own (R37, R42); MULW's
needs its two destinations to differ (R43). -/
theorem decodeWord_encodeWord {i : Instr} (hwf : i.wf = true) : decodeWord (encodeWord i) = some i := by
  cases i with
  | mulw rd rd2 rs1 rs2 => exact decodeWord_packFields_rw rfl rs1 rs2 (of_decide_eq_true hwf)
  | muldiv rd rs1 rs2 rs3 | muldivup rd rs1 rs2 rs3 => exact decodeWord_packFields_r4 rfl rd rs1 rs2 rs3
  | add rd rs1 rs2 | sub rd rs1 rs2 | mul rd rs1 rs2 | shl rd rs1 rs2 | shr rd rs1 rs2 | and rd rs1 rs2
  | fpmul rd rs1 rs2 | muli rd rs1 rs2 | muluq rd rs1 rs2 | divuq rd rs1 rs2 | fraction rd rs1 rs2 =>
    exact decodeWord_packFields_r3 rfl rd rs1 rs2
  | msb rd rs1 | lsb rd rs1 | sqrt rd rs1 | encode rd rs1 | encode144 rd rs1 | decode rd rs1 | decode144 rd rs1
  | recip rd rs1 | fpsqrt rd rs1 => exact decodeWord_packFields_r2 rfl rd rs1

/-- Settles O6: the bytes are the word's four 8-bit fields, and the decoder puts them together again. -/
theorem instructionBytesLittleEndian : Obligations.InstructionBytesLittleEndian := by
  constructor
  · intro w
    refine ⟨_, _, _, _, rfl, rfl, fun j hj => ?_, wordOfBytes_fields w⟩
    have hbyte0 := byte_getLsbD w 0 hj
    rw [Nat.zero_add] at hbyte0
    exact ⟨hbyte0, byte_getLsbD w 8 hj, byte_getLsbD w 16 hj, byte_getLsbD w 24 hj⟩
  · intro i rest hwf
    rw [encodeBytes, decodeBytes_bytesOfWord, decodeWord_encodeWord hwf, Option.map_some]

end Sys2Proof
end

section
/-! PROOF. Limb transfers (20_memory.md R25, R28): when the port has a step for one, and which bits it moves. -/

namespace Sys2Proof.Machine

theorem serve_writeLimb_outOfRange {k : Nat} {s : State} (r : Reg) (v : Word) (h : ¬k < s.params.limbWidth.count) :
    serve (.writeLimb r k v) s = .refused (.limbIndexOutOfRange r k) := if_neg h

theorem serve_readLimb_outOfRange {k : Nat} {s : State} (r : Reg) (h : ¬k < s.params.limbWidth.count) :
    serve (.readLimb r k) s = .refused (.limbIndexOutOfRange r k) := if_neg h

/-- A limb index is out of range exactly when its first bit is (R28). -/
theorem limb_outOfRange (w : LimbWidth) (k : Nat) : ¬k < w.count ↔ 256 ≤ w.bits * k := by
  rw [limb_in_range, Nat.not_lt]

/-- Taking an operation off the port keeps the parameters. -/
theorem Accepts.params {s u : State} {op : HostOp} (h : Accepts s op u) : u.params = s.params := by
  obtain ⟨rest, -, rfl⟩ := h
  rfl

theorem Accepts.status {s u : State} {op : HostOp} (h : Accepts s op u) : u.status = s.status := by
  obtain ⟨rest, -, rfl⟩ := h
  rfl

theorem Accepts.reg {s u : State} {op : HostOp} (h : Accepts s op u) (r : Reg) : u.reg r = s.reg r := by
  obtain ⟨rest, -, rfl⟩ := h
  rfl

/-- Settles O13: the port's bound on the index is the bound on the limb's first bit. -/
theorem limbIndexOutOfRangeHasNoStep : Obligations.LimbIndexOutOfRangeHasNoStep := by
  intro s u r k v
  constructor <;> intro hacc <;> rw [step_of_accepts hacc, ← hacc.params, ← limb_outOfRange, ← limb_in_range]
  · exact ⟨serve_writeLimb_outOfRange r v, fun hk => ⟨_, serve_writeLimb r v hk⟩⟩
  · exact ⟨serve_readLimb_outOfRange r, fun hk => ⟨_, serve_readLimb r hk⟩⟩

/-- Settles O15: a limb write is `setLimb`, and a limb read answers `getLimb` of the register. -/
theorem limbTransferMovesItsBits : Obligations.LimbTransferMovesItsBits := by
  intro s u r k v hbits
  have hk := (limb_in_range s.params.limbWidth k).2 hbits
  constructor <;> intro hacc <;> rw [← hacc.params] at hk ⊢ <;> rw [← hacc.reg r]
  · exact ⟨u.setLimb r k v, (step_of_accepts hacc).trans (serve_writeLimb r v hk),
      fun b hb => u.reg_setLimb_getLsbD r k v hb, sameRegsBut_setLimb u r k v, hacc.status, ⟨rfl, rfl, rfl, rfl, rfl⟩⟩
  · exact ⟨_, (step_of_accepts hacc).trans (serve_readLimb r hk), getLimb_toNat u.params.limbWidth k (u.reg r)⟩

end Sys2Proof.Machine
end

section
/-! PROOF. Several units (20_memory.md R35): a step of one writes its own place in the list alone. -/

namespace Sys2Proof.Machine

/-- Everything a platform's step can do: nothing where there is no such unit, or that unit's own step. -/
theorem Units.step_next {k : Nat} {us vs : Units} (h : Units.step k us = .next vs) :
    (us[k]? = none ∧ vs = us) ∨ ∃ s t, us[k]? = some s ∧ Machine.step s = .next t ∧ vs = us.set k t := by
  cases hk : us[k]? with
  | none =>
    simp only [Units.step, hk] at h
    cases h
    exact .inl ⟨rfl, rfl⟩
  | some s =>
    cases hs : Machine.step s with
    | next t =>
      simp only [Units.step, hk, hs] at h
      cases h
      exact .inr ⟨s, t, rfl, hs, rfl⟩
    | fault f => simp [Units.step, hk, hs] at h
    | refused r => simp [Units.step, hk, hs] at h

theorem step_of_secondHost {s : State} {q : Request} {rest : List Request} (hi : s.inbox = q :: rest)
    (hq : q.host ≠ s.host) : step s = .refused (.secondHost q.host) := by
  simp only [step, hi, serveRequest, if_neg hq]

/-- Settles O14: the platform's step sets one place of the list, and the port compares the host's number first. -/
theorem instancesShareNothing : Obligations.InstancesShareNothing := by
  refine ⟨fun k us vs h => ?_, fun s q rest => step_of_secondHost⟩
  rcases Units.step_next h with ⟨hnone, rfl⟩ | ⟨s, t, hsome, hstep, rfl⟩
  · refine ⟨rfl, fun _ _ => rfl, fun s hs => ?_⟩
    rw [hnone] at hs
    cases hs
  · have hk : k < us.length := (List.getElem?_eq_some_iff.1 hsome).1
    refine ⟨List.length_set, fun j hj => List.getElem?_set_ne hj.symm, fun s' hs' => ?_⟩
    rw [hsome] at hs'
    cases hs'
    exact ⟨t, hstep, List.getElem?_set_self hk⟩

end Sys2Proof.Machine
end

section
/-! PROOF. An instruction run again (20_memory.md R29): its sources are as they were, so its outcome is the same, and one outcome
applied twice is that outcome applied once. -/

namespace Sys2Proof.Machine

/-- Registers, written parts, STATUS and port are all there is to a state. -/
theorem State.eq_of_samePort {s t : State} (hreg : ∀ r, t.reg r = s.reg r) (hparts : ∀ r, t.parts r = s.parts r)
    (hstatus : t.status = s.status) (hport : SamePort s t) : t = s := by
  have hregs : t.regs = s.regs := Vector.ext fun n hn => hreg ⟨n, hn⟩
  have hwritten : t.written = s.written := Vector.ext fun n hn => hparts ⟨n, hn⟩
  obtain ⟨hposition, hhost, hinbox, hreply, hparams⟩ := hport
  cases s
  cases t
  simp_all

/-- Doing the same writes again changes nothing. -/
theorem writes_idem (ws : List (Reg × Word)) (s : State) :
    ws.foldl (fun u w => u.setReg w.1 w.2) (ws.foldl (fun u w => u.setReg w.1 w.2) s) =
      ws.foldl (fun u w => u.setReg w.1 w.2) s := by
  obtain ⟨hport, hstatus⟩ := writes_port ws (ws.foldl (fun u w => u.setReg w.1 w.2) s)
  refine State.eq_of_samePort (fun r => ?_) (fun r => ?_) hstatus hport <;> by_cases hr : r ∈ ws.map Prod.fst
  · exact writes_reg_mem ws _ s r hr
  · exact (writes_reg_other ws _ r hr).1
  · rw [writes_parts_mem ws _ r hr, writes_parts_mem ws s r hr]
  · exact (writes_reg_other ws _ r hr).2

/-- Completing STATUS before the writes as well as after them is completing it after them (R91). -/
theorem writes_complete (op : Byte) (ws : List (Reg × Word)) (s : State) :
    (ws.foldl (fun u w => u.setReg w.1 w.2) (s.complete op)).complete op =
      (ws.foldl (fun u w => u.setReg w.1 w.2) s).complete op := by
  induction ws generalizing s with
  | nil => rfl
  | cons w ws ih => exact ih (s.setReg w.1 w.2)

/-- One outcome applied twice is the outcome applied once (R90, R91). -/
theorem applyOutcome_idem (op : Byte) (o : Except ErrorCode (List (Reg × Word))) (s : State) :
    applyOutcome op o (applyOutcome op o s) = applyOutcome op o s := by
  cases o with
  | ok ws => simp only [applyOutcome, writes_complete, writes_idem]
  | error e => rfl

/-- An instruction leaves every register that is no destination (R90, R91). -/
theorem applyOutcome_reg_other (i : Instr) (p : Params) (x : Reg → Word) (s : State) {r : Reg} (hr : r ∉ dests i) :
    (applyOutcome i.opcode (outcome i p x) s).reg r = s.reg r := by
  cases ho : outcome i p x with
  | ok ws => exact (writes_reg_other ws s r (outcome_dests ho ▸ hr)).1
  | error e => rfl

/-- Settles O49: no source has changed, so the second run applies the first run's outcome again. -/
theorem repeatedInstructionGivesSameState : Obligations.RepeatedInstructionGivesSameState := by
  intro i s hdisjoint
  have hout := outcome_eq_of_agree (i := i) (applyOutcome_port i.opcode (outcome i s.params s.reg) s).params
    fun r hr => applyOutcome_reg_other i s.params s.reg s fun hd => hdisjoint r hd hr
  refine ⟨_, exec_eq_outcome i s, ?_⟩
  rw [exec_eq_outcome, hout, applyOutcome_idem]

end Sys2Proof.Machine
end

section
/-! PROOF. The legality rule (30_encoding.md R43): each row of the opcode map with the format's decoder that reads its words, what
a row accepts, and that an accepted word is the encoding of what it decodes to (R38, R42). -/

namespace Sys2Proof

/-! ### The masks of R38 as the fields that must be zero -/

/-- The fields a format does not use are zero (R38). -/
def Format.UnusedZero : Format → InstrWord → Prop
  | .r2, w => field w 16 16 = 0
  | .r3, w => field w 20 12 = 0
  | .r4, w => field w 24 8 = 0
  | .rw, w => field w 28 4 = 0 ∧ field w 20 4 = 0

/-- A masked word is an opcode exactly when it is the word's own and the unused fields are zero (R43). -/
theorem and_mask_eq_iff (w : InstrWord) (op : Byte) (f : Format) :
    w &&& f.mask = op.zeroExtend 32 ↔ op = opcodeOf w ∧ f.UnusedZero w := by
  have hop := op.isLt
  have hlow := field_lt w 0 8
  rw [BitVec.toNat_eq, Laws.zeroExtend_toNat, BitVec.toNat_eq (x := op), opcodeOf_toNat]
  cases f with
  | r2 => rw [mask_r2, Format.UnusedZero]; omega
  | r3 => rw [mask_r3, Format.UnusedZero]; omega
  | r4 => rw [mask_r4, Format.UnusedZero]; omega
  | rw => rw [mask_rw, Format.UnusedZero]; omega

/-! ### What each format's decoder accepts -/

theorem decodeR2_isSome (mk : Reg → Reg → Instr) (w : InstrWord) :
    (decodeR2 mk w).isSome = true ↔ Format.r2.UnusedZero w := by
  unfold decodeR2
  split <;> simp [Format.UnusedZero, *]

theorem decodeR3_isSome (mk : Reg → Reg → Reg → Instr) (w : InstrWord) :
    (decodeR3 mk w).isSome = true ↔ Format.r3.UnusedZero w := by
  unfold decodeR3
  split <;> simp [Format.UnusedZero, *]

theorem decodeR4_isSome (mk : Reg → Reg → Reg → Reg → Instr) (w : InstrWord) :
    (decodeR4 mk w).isSome = true ↔ Format.r4.UnusedZero w := by
  unfold decodeR4
  split <;> simp [Format.UnusedZero, *]

theorem decodeRW_isSome (mk : Reg → Reg → Reg → Reg → Instr) (w : InstrWord) :
    (decodeRW mk w).isSome = true ↔ Format.rw.UnusedZero w ∧ regField w 8 ≠ regField w 24 := by
  unfold decodeRW
  rw [Format.UnusedZero, and_assoc]
  split <;> simp [*]

/-! ### A word whose unused fields are zero is its other fields packed (R37, R38) -/

theorem packFields_of_r2 {w : InstrWord} (h : field w 16 16 = 0) :
    packFields (opcodeOf w) (regField w 8) (regField w 12) 0 0 0 = w := by
  have hzero : field w 16 4 = 0 ∧ field w 20 4 = 0 ∧ field w 24 4 = 0 ∧ field w 28 4 = 0 := by
    simp only [field] at h ⊢
    omega
  obtain ⟨hrs2, hrs3, hrd2, hhigh⟩ := hzero
  exact packFields_eq (opcodeOf_toNat w).symm (regField_val w 8).symm (regField_val w 12).symm hrs2 hrs3 hrd2 hhigh

theorem packFields_of_r3 {w : InstrWord} (h : field w 20 12 = 0) :
    packFields (opcodeOf w) (regField w 8) (regField w 12) (regField w 16) 0 0 = w := by
  have hzero : field w 20 4 = 0 ∧ field w 24 4 = 0 ∧ field w 28 4 = 0 := by
    simp only [field] at h ⊢
    omega
  obtain ⟨hrs3, hrd2, hhigh⟩ := hzero
  exact packFields_eq (opcodeOf_toNat w).symm (regField_val w 8).symm (regField_val w 12).symm (regField_val w 16).symm
    hrs3 hrd2 hhigh

theorem packFields_of_r4 {w : InstrWord} (h : field w 24 8 = 0) :
    packFields (opcodeOf w) (regField w 8) (regField w 12) (regField w 16) (regField w 20) 0 = w := by
  have hzero : field w 24 4 = 0 ∧ field w 28 4 = 0 := by
    simp only [field] at h ⊢
    omega
  obtain ⟨hrd2, hhigh⟩ := hzero
  exact packFields_eq (opcodeOf_toNat w).symm (regField_val w 8).symm (regField_val w 12).symm (regField_val w 16).symm
    (regField_val w 20).symm hrd2 hhigh

theorem packFields_of_rw {w : InstrWord} (hhigh : field w 28 4 = 0) (hrs3 : field w 20 4 = 0) :
    packFields (opcodeOf w) (regField w 8) (regField w 12) (regField w 16) 0 (regField w 24) = w :=
  packFields_eq (opcodeOf_toNat w).symm (regField_val w 8).symm (regField_val w 12).symm (regField_val w 16).symm
    hrs3 (regField_val w 24).symm hhigh

/-! ### The opcode map with its decoder and encoder (R42) -/

/-- A row of the opcode map with its constructor `mk`: the decoder reads the row's words by the row's format, and the encoder
packs `mk`'s registers under the row's opcode. Format RW, MULW's, is the one with a condition on its registers (R43). A row
of given opcode and constructor has these facts by evaluation. -/
inductive OpcodeRow (op : Byte) : Format → Prop
  | r2 (mk : Reg → Reg → Instr)
      (hdec : decodeOpcode op.toNat = decodeR2 mk := by rfl)
      (henc : ∀ rd rs1, (mk rd rs1).wf = true ∧ encodeWord (mk rd rs1) = packFields op rd rs1 0 0 0 := by
        exact fun _ _ => ⟨rfl, rfl⟩)
      (hop : op ≠ 0x04#8 := by decide) : OpcodeRow op .r2
  | r3 (mk : Reg → Reg → Reg → Instr)
      (hdec : decodeOpcode op.toNat = decodeR3 mk := by rfl)
      (henc : ∀ rd rs1 rs2, (mk rd rs1 rs2).wf = true ∧ encodeWord (mk rd rs1 rs2) = packFields op rd rs1 rs2 0 0 := by
        exact fun _ _ _ => ⟨rfl, rfl⟩)
      (hop : op ≠ 0x04#8 := by decide) : OpcodeRow op .r3
  | r4 (mk : Reg → Reg → Reg → Reg → Instr)
      (hdec : decodeOpcode op.toNat = decodeR4 mk := by rfl)
      (henc : ∀ rd rs1 rs2 rs3, (mk rd rs1 rs2 rs3).wf = true ∧
        encodeWord (mk rd rs1 rs2 rs3) = packFields op rd rs1 rs2 rs3 0 := by exact fun _ _ _ _ => ⟨rfl, rfl⟩)
      (hop : op ≠ 0x04#8 := by decide) : OpcodeRow op .r4
  | rw (mk : Reg → Reg → Reg → Reg → Instr)
      (hdec : decodeOpcode op.toNat = decodeRW mk := by rfl)
      (henc : ∀ rd rd2 rs1 rs2, rd ≠ rd2 → (mk rd rd2 rs1 rs2).wf = true ∧
        encodeWord (mk rd rd2 rs1 rs2) = packFields op rd rs1 rs2 0 rd2 := by
        exact fun _ _ _ _ hne => ⟨decide_eq_true hne, rfl⟩)
      (hop : op = 0x04#8 := by rfl) : OpcodeRow op .rw

/-- Every row of the map, in the order of R42, with its constructor. -/
theorem opcodeRow_of_mem {op : Byte} {f : Format} (h : (op, f) ∈ opcodeMap) : OpcodeRow op f := by
  suffices hrows : ∀ row ∈ opcodeMap, OpcodeRow row.1 row.2 from hrows _ h
  simp only [opcodeMap, List.cons_append, List.nil_append, List.forall_mem_cons]
  exact ⟨.r3 .add, .r3 .sub, .r3 .mul, .rw .mulw, .r3 .shl, .r3 .shr, .r3 .and, .r2 .msb, .r2 .lsb, .r2 .sqrt, .r4 .muldiv,
    .r4 .muldivup, .r2 .encode, .r2 .encode144, .r2 .decode, .r2 .decode144, .r3 .fpmul, .r3 .muli, .r3 .muluq, .r3 .divuq,
    .r3 .fraction, .r2 .recip, .r2 .fpsqrt, List.forall_mem_nil _⟩

/-- The opcodes of the map as numbers (R42). -/
def mappedOpcodes : List Nat :=
  opcodeMap.map fun row => row.1.toNat

/-- The decoder reads nothing under an opcode outside the map (R44). -/
theorem decodeOpcode_unmapped {n : Nat} (h : n ∉ mappedOpcodes) (w : InstrWord) : decodeOpcode n w = none := by
  unfold decodeOpcode
  split
  case h_24 => rfl
  all_goals exact absurd (by decide) h

/-- A word the decoder reads has a row of the map. -/
theorem exists_row_of_decodeWord {w : InstrWord} (h : (decodeWord w).isSome = true) :
    ∃ f, (opcodeOf w, f) ∈ opcodeMap := by
  by_cases hmap : field w 0 8 ∈ mappedOpcodes
  · obtain ⟨⟨op, f⟩, hmem, hop⟩ := List.mem_map.1 hmap
    have hopcode : op = opcodeOf w := BitVec.eq_of_toNat_eq (by rw [hop, opcodeOf_toNat])
    exact ⟨f, hopcode ▸ hmem⟩
  · rw [decodeWord, decodeOpcode_unmapped hmap] at h
    cases h

/-- A word is read by its opcode's row. -/
theorem decodeWord_eq_decodeOpcode (w : InstrWord) : decodeWord w = decodeOpcode (opcodeOf w).toNat w := by
  rw [decodeWord, opcodeOf_toNat]

/-! ### The two round trips (R37, R38, R42, R43) -/

/-- Encoding undoes decoding: the decoder kept every field its format uses and saw that the others are zero. -/
theorem encodeWord_of_decodeWord {w : InstrWord} {i : Instr} (h : decodeWord w = some i) :
    i.wf = true ∧ encodeWord i = w := by
  obtain ⟨f, hmem⟩ := exists_row_of_decodeWord (Option.isSome_of_eq_some h)
  rw [decodeWord_eq_decodeOpcode] at h
  cases opcodeRow_of_mem hmem with
  | r2 mk hdec henc =>
    rw [hdec] at h
    obtain ⟨hzero, rfl⟩ := decodeR2_eq_some h
    exact (henc ..).imp_right fun hword => hword.trans (packFields_of_r2 hzero)
  | r3 mk hdec henc =>
    rw [hdec] at h
    obtain ⟨hzero, rfl⟩ := decodeR3_eq_some h
    exact (henc ..).imp_right fun hword => hword.trans (packFields_of_r3 hzero)
  | r4 mk hdec henc =>
    rw [hdec] at h
    obtain ⟨hzero, rfl⟩ := decodeR4_eq_some h
    exact (henc ..).imp_right fun hword => hword.trans (packFields_of_r4 hzero)
  | rw mk hdec henc =>
    rw [hdec] at h
    obtain ⟨⟨hhigh, hrs3, hne⟩, rfl⟩ := decodeRW_eq_some h
    exact (henc _ _ _ _ hne).imp_right fun hword => hword.trans (packFields_of_rw hhigh hrs3)

/-- Settles O2: each instruction's word is read by its opcode's row, whose format is the instruction's. -/
theorem decodeOfEncodedInstruction : Obligations.DecodeOfEncodedInstruction :=
  fun _ hwf => decodeWord_encodeWord hwf

/-- Settles O3: the word's row of the opcode map says how its format packs the fields the decoder read. -/
theorem encodeOfDecodedWord : Obligations.EncodeOfDecodedWord :=
  fun _ _ h => encodeWord_of_decodeWord h

/-! ### The decoder and the legality rule agree (R43) -/

/-- What a row of the map accepts of the words with its opcode. -/
theorem decodeWord_isSome_of_row {f : Format} {w : InstrWord} (hmem : (opcodeOf w, f) ∈ opcodeMap) :
    (decodeWord w).isSome = true ↔ f.UnusedZero w ∧ ¬(opcodeOf w = 0x04#8 ∧ regField w 8 = regField w 24) := by
  rw [decodeWord_eq_decodeOpcode]
  cases opcodeRow_of_mem hmem with
  | r2 mk hdec _ hop => rw [hdec, decodeR2_isSome]; simp [hop]
  | r3 mk hdec _ hop => rw [hdec, decodeR3_isSome]; simp [hop]
  | r4 mk hdec _ hop => rw [hdec, decodeR4_isSome]; simp [hop]
  | rw mk hdec _ hop => rw [hdec, decodeRW_isSome]; simp [hop]

/-- Settles O4: a row's mask says that the opcode is the row's and that the unused fields are zero, which is what the row's
decoder asks. -/
theorem decoderAcceptsLegalWordsOnly : Obligations.DecoderAcceptsLegalWordsOnly := by
  intro w
  constructor
  · intro h
    obtain ⟨f, hmem⟩ := exists_row_of_decodeWord h
    obtain ⟨hzero, hmulw⟩ := (decodeWord_isSome_of_row hmem).1 h
    exact ⟨_, hmem, (and_mask_eq_iff ..).2 ⟨rfl, hzero⟩, hmulw⟩
  · rintro ⟨⟨op, f⟩, hmem, hmask, hmulw⟩
    obtain ⟨rfl, hzero⟩ := (and_mask_eq_iff ..).1 hmask
    exact (decodeWord_isSome_of_row hmem).2 ⟨hzero, hmulw⟩

/-- R43's formula holds of exactly the words the decoder reads. -/
theorem legal_iff_decodeWord_isSome (w : InstrWord) : legal w = true ↔ (decodeWord w).isSome = true := by
  cases hfind : opcodeMap.find? (fun row => row.1 = opcodeOf w) with
  | none =>
    have hnone : ¬(decodeWord w).isSome = true := by
      intro h
      obtain ⟨f, hmem⟩ := exists_row_of_decodeWord h
      exact List.find?_eq_none.1 hfind _ hmem (decide_eq_true rfl)
    simp [legal, hfind, hnone]
  | some row =>
    obtain ⟨op, f⟩ := row
    have hop : op = opcodeOf w := of_decide_eq_true (List.find?_some hfind :)
    subst hop
    rw [decodeWord_isSome_of_row (List.mem_of_find?_eq_some hfind)]
    simp [legal, hfind, and_mask_eq_iff, imp_iff_not_or]

theorem legal_eq_false_iff (w : InstrWord) : legal w = false ↔ decodeWord w = none := by
  rw [← Bool.not_eq_true, legal_iff_decodeWord_isSome, Option.not_isSome_iff_eq_none]

/-- Settles O1: eight closed words, decoded. -/
theorem specWordsDecode : Obligations.SpecWordsDecode := by
  unfold Obligations.SpecWordsDecode
  decide

end Sys2Proof
end

section
/-! PROOF. How an instruction ends (60_exceptions.md R87, R90, R91): an illegal word, any instruction, and the
pseudo-instructions (30_encoding.md R43, R44, R46). -/

namespace Sys2Proof.Machine

/-- Settles O5: `legal` rejects what the decoder does not read, and no reserved opcode is in the map. -/
theorem illegalWordRaisesIllegalOperation : Obligations.IllegalWordRaisesIllegalOperation := by
  constructor
  · intro s u w hacc hillegal
    rw [step_of_accepts hacc, serve_issue, issueWord_illegal ((legal_eq_false_iff w).1 hillegal)]
    exact ⟨_, rfl, Raised.of_raise ..⟩
  · intro w hreserved
    have hunmapped : field w 0 8 ∉ mappedOpcodes := by
      simp only [mappedOpcodes, opcodeMap, List.cons_append, List.nil_append, List.map_cons, List.map_nil,
        BitVec.reduceToNat, List.mem_cons, List.not_mem_nil, or_false]
      omega
    rw [legal_eq_false_iff, decodeWord, decodeOpcode_unmapped hunmapped]

/-- Settles O45: `exec` applies an outcome, which sets LASTOP, leaves the port, and carries an error of R87's list or none. -/
theorem everyInstructionCompletes : Obligations.EveryInstructionCompletes := by
  intro i s
  refine ⟨_, exec_eq_outcome i s, applyOutcome_lastop .., applyOutcome_port .., ?_⟩
  cases ho : outcome i s.params s.reg with
  | ok ws =>
    have hwf := outcome_wf_ok ho
    simp [applyOutcome, hwf]
  | error e =>
    rcases outcome_error ho with ⟨hwf, hlisted, -, hne⟩ | ⟨hwf, rfl⟩
    · simp [applyOutcome, hwf, hlisted, hne]
    · simp [applyOutcome, hwf]

/-- A register less itself is 0 (R46, R52). -/
theorem subValue_self (v : Word) : subValue v v = .ok 0#256 := by
  simp [subValue]

/-- Settles O44: a register masked by itself is itself, and a register less itself is 0. -/
theorem pseudoInstructionsExpand : Obligations.PseudoInstructionsExpand := by
  intro rd rs s
  refine ⟨rfl, rfl, ?mov, ?zero⟩
  case mov =>
    rw [pseudoMov, exec, execAnd, BitVec.and_self, finish_ok]
    exact ⟨_, rfl, Completed.of_setReg ..⟩
  case zero =>
    rw [pseudoZero, exec, execSub, subValue_self, finish_ok]
    exact ⟨_, rfl, Completed.of_setReg 0x02#8 rd 0#256 s⟩

end Sys2Proof.Machine
end

section
/-! PROOF. The Word256 instructions (41_word256.md R51 to R57): each encodes as its row of the opcode map, and ends with its
exact result or the one error it has. -/

namespace Sys2Proof.Machine

/-! ### How a checked result ends (R13, R90, R91) -/

/-- A result below its bound completes the instruction. -/
theorem finish_fits_completed (op : Byte) (rd : Reg) {bound v : Nat} (hbound : bound ≤ wordBound) (h : v < bound)
    (s : State) :
    ∃ t, finish op rd (fits bound v) s = .next t ∧ Completed op rd v s t := by
  rw [fits_ok h, finish_ok]
  exact ⟨_, rfl, Completed.of_ofNat op rd (h.trans_le hbound) s⟩

/-- A result that reaches its bound raises OVERFLOW. -/
theorem finish_fits_raised (op : Byte) (rd : Reg) {bound v : Nat} (h : bound ≤ v) (s : State) :
    ∃ t, finish op rd (fits bound v) s = .next t ∧ Raised op .overflow s t := by
  rw [fits_error h, finish_error]
  exact ⟨_, rfl, Raised.of_raise op .overflow s⟩

/-- An instruction with no error completes with the number its word holds. -/
theorem finish_ok_completed (op : Byte) (rd : Reg) {w : Word} {v : Nat} (h : w.toNat = v) (s : State) :
    ∃ t, finish op rd (.ok w) s = .next t ∧ Completed op rd v s t :=
  ⟨_, finish_ok .., h ▸ Completed.of_setReg op rd w s⟩

/-! ### The values -/

/-- A difference that is not negative is exact (R52). -/
theorem subValue_ok {a b : Word} (h : b.toNat ≤ a.toNat) : subValue a b = .ok (BitVec.ofNat 256 (a.toNat - b.toNat)) :=
  if_neg (Nat.not_lt.2 h)

/-- A negative difference is OVERFLOW (R52). -/
theorem subValue_error {a b : Word} (h : a.toNat < b.toNat) : subValue a b = .error .overflow :=
  if_pos h

/-- SHL's value (R55): from a shift amount of 256 on, `2^256` divides the product. -/
theorem shlValue_toNat (a n : Word) : (shlValue a n).toNat = a.toNat * 2 ^ n.toNat % 2 ^ 256 := by
  unfold shlValue
  split
  · exact BitVec.toNat_ofNat ..
  · have hdvd : 2 ^ 256 ∣ a.toNat * 2 ^ n.toNat := (pow_dvd_pow 2 (by omega)).mul_left _
    rw [Nat.mod_eq_zero_of_dvd hdvd]
    rfl

/-- SHR's value (R56): from a shift amount of 256 on, `2^n` is above every word. -/
theorem shrValue_toNat (a n : Word) : (shrValue a n).toNat = a.toNat / 2 ^ n.toNat := by
  unfold shrValue
  split
  · rw [BitVec.toNat_ofNat, Nat.mod_eq_of_lt ((Nat.div_le_self ..).trans_lt a.isLt)]
  · have hlt : a.toNat < 2 ^ n.toNat := a.isLt.trans_le (Nat.pow_le_pow_right (by decide) (by omega))
    rw [Nat.div_eq_of_lt hlt]
    rfl

/-! ### MULW -/

theorem execMulw_same (rd rs1 rs2 : Reg) (s : State) :
    execMulw rd rd rs1 rs2 s = .next (s.raise .illegalOperation 0x04#8) :=
  if_pos rfl

/-- MULW with two destinations (R54): the low half to the first, the high half to the second. -/
theorem execMulw_ne {rd rd2 : Reg} (hne : rd ≠ rd2) (rs1 rs2 : Reg) (s : State) :
    execMulw rd rd2 rs1 rs2 s =
      .next (((s.setReg rd (BitVec.ofNat 256 ((s.reg rs1).toNat * (s.reg rs2).toNat % wordBound))).setReg rd2
        (BitVec.ofNat 256 ((s.reg rs1).toNat * (s.reg rs2).toNat / wordBound))).complete 0x04#8) :=
  if_neg hne

/-- The halves of a product of two words, each cut to a word, are the product. -/
theorem halves_of_product (a b : Word) :
    (BitVec.ofNat 256 (a.toNat * b.toNat / wordBound)).toNat * 2 ^ 256 +
      (BitVec.ofNat 256 (a.toNat * b.toNat % wordBound)).toNat = a.toNat * b.toNat := by
  have hhi : a.toNat * b.toNat / 2 ^ 256 < 2 ^ 256 :=
    Nat.div_lt_of_lt_mul (Nat.mul_lt_mul'' a.isLt b.isLt)
  rw [BitVec.toNat_ofNat, BitVec.toNat_ofNat, Nat.mod_mod, Nat.mod_eq_of_lt hhi]
  exact Nat.div_add_mod' ..

/-! ### The statements -/

/-- Settles O20: the second write leaves the first destination, since the two differ. -/
theorem mulwResult : Obligations.MulwResult := by
  intro rd rd2 rs1 rs2 s
  refine ⟨packFields_toNat .., fun hne => ?product, fun heq => ?illegal⟩
  case product =>
    refine ⟨_, execMulw_ne hne rs1 rs2 s, ?halves, ?low, ?high, ?frame, ⟨rfl, rfl, rfl⟩, ⟨rfl, rfl, rfl, rfl, rfl⟩⟩
    case halves =>
      rw [State.reg_complete, State.reg_complete, State.reg_setReg_same, State.reg_setReg_other _ _ hne,
        State.reg_setReg_same]
      exact halves_of_product ..
    case low =>
      rw [State.isWritten_complete, State.isWritten_congr (State.parts_setReg_other _ _ hne), State.isWritten_setReg_same]
    case high => rw [State.isWritten_complete, State.isWritten_setReg_same]
    case frame => exact fun r hr => writes_reg_other [(rd, _), (rd2, _)] s r hr
  case illegal =>
    subst heq
    exact ⟨_, execMulw_same .., Raised.of_raise ..⟩

/-- Settles O21: SHL has no error, and its value is the product modulo `2^256`. -/
theorem shlResult : Obligations.ShlResult := fun rd _ _ s =>
  ⟨packFields_toNat .., finish_ok_completed 0x05#8 rd (shlValue_toNat ..) s⟩

/-- Settles O22: SHR has no error, and its value is the quotient. -/
theorem shrResult : Obligations.ShrResult := fun rd _ _ s =>
  ⟨packFields_toNat .., finish_ok_completed 0x06#8 rd (shrValue_toNat ..) s⟩

/-- Settles O17: ADD is the sum checked against the word's bound. -/
theorem addResult : Obligations.AddResult := fun rd _ _ s =>
  ⟨packFields_toNat .., fun h => finish_fits_completed 0x01#8 rd le_rfl h s, fun h => finish_fits_raised 0x01#8 rd h s⟩

/-- Settles O18: SUB is the difference, checked before it is taken. -/
theorem subResult : Obligations.SubResult := by
  intro rd rs1 rs2 s
  refine ⟨packFields_toNat .., fun h => ?exact, fun h => ?negative⟩
  case exact =>
    have hlt : (s.reg rs1).toNat - (s.reg rs2).toNat < 2 ^ 256 := (Nat.sub_le ..).trans_lt (s.reg rs1).isLt
    rw [exec, execSub, subValue_ok h, finish_ok]
    exact ⟨_, rfl, Completed.of_ofNat 0x02#8 rd hlt s⟩
  case negative =>
    rw [exec, execSub, subValue_error h, finish_error]
    exact ⟨_, rfl, Raised.of_raise ..⟩

/-- Settles O19: MUL is the product checked against the word's bound. -/
theorem mulResult : Obligations.MulResult := fun rd _ _ s =>
  ⟨packFields_toNat .., fun h => finish_fits_completed 0x03#8 rd le_rfl h s, fun h => finish_fits_raised 0x03#8 rd h s⟩

/-- Settles O23: AND has no error, and a word's `and` is the `and` of the numbers. -/
theorem andResult : Obligations.AndResult := by
  intro rd rs1 rs2 s
  obtain ⟨t, ht, hcompleted⟩ := finish_ok_completed 0x07#8 rd (BitVec.toNat_and (s.reg rs1) (s.reg rs2)) s
  exact ⟨packFields_toNat .., t, _, ht, hcompleted, fun b => Nat.testBit_and ..⟩

end Sys2Proof.Machine
end

section
/-! PROOF. The informative datapaths of MULW and MULDIV (41_word256.md R54, 44_muldiv.md R70) compute the product's halves and
the floor of `a*b/d`. A product is fixed by its residues modulo `2^256 - 1` and `2^256`; an exact quotient by an odd divisor is
the dividend times the divisor's inverse modulo `2^256`, which Newton's steps find by doubling the number of right bits. -/

namespace Sys2Proof.Machine

/-! ### The product from two residues (R54) -/

/-- The high half of a product of two words is at most `2^256 - 2`. -/
theorem mul_div_le_of_word {a b : Nat} (ha : a < 2 ^ 256) (hb : b < 2 ^ 256) : a * b / 2 ^ 256 ≤ 2 ^ 256 - 2 := by
  have hp : a * b ≤ (2 ^ 256 - 1) * (2 ^ 256 - 1) := Nat.mul_le_mul (by omega) (by omega)
  omega

/-- The residue modulo `2^256 - 1` is that of the two halves' sum. -/
theorem mod_pred_eq_halves (p : Nat) : p % (2 ^ 256 - 1) = (p / 2 ^ 256 + p % 2 ^ 256) % (2 ^ 256 - 1) := by
  omega

/-- The two residues give the product's halves (R54): the halves' sum wraps modulo `2^256 - 1` at most once, and it has wrapped
exactly when the residue is below the low half. -/
theorem mulwDatapath_eq {a b : Nat} (ha : a < 2 ^ 256) (hb : b < 2 ^ 256) :
    mulwDatapath a b = (a * b / 2 ^ 256, a * b % 2 ^ 256) := by
  have hhi := mul_div_le_of_word ha hb
  have hlo : a * b % 2 ^ 256 < 2 ^ 256 := Nat.mod_lt _ (by decide)
  rw [mulwDatapath, mod_pred_eq_halves]
  generalize a * b / 2 ^ 256 = hi at hhi ⊢
  generalize a * b % 2 ^ 256 = lo at hlo ⊢
  refine Prod.ext ?_ rfl
  dsimp only
  by_cases hwrap : hi + lo < 2 ^ 256 - 1
  · rw [Nat.mod_eq_of_lt hwrap, if_neg (by omega)]
    omega
  · have hmm : (hi + lo) % (2 ^ 256 - 1) = hi + lo - (2 ^ 256 - 1) := by omega
    rw [hmm, if_pos (by omega)]
    omega

/-! ### The inverse modulo `2^256` (R70) -/

/-- One Newton step doubles the number of right bits: `1 - d*inv*(2 - d*inv)` is the square of `1 - d*inv`. -/
theorem newton_inverse_modEq {d inv : ℤ} {j : Nat} (h : d * inv ≡ 1 [ZMOD 2 ^ j]) :
    d * (inv * (2 - d * inv)) ≡ 1 [ZMOD 2 ^ (2 * j)] := by
  have hsq : 1 - d * (inv * (2 - d * inv)) = (1 - d * inv) * (1 - d * inv) := by ring
  rw [Int.modEq_iff_dvd, hsq, two_mul, pow_add]
  exact mul_dvd_mul h.dvd h.dvd

/-- `n` Newton steps take an inverse of `j` right bits to one of `j * 2^n`, up to the 256 bits of the word. -/
theorem inverseSteps_modEq {d : Nat} (n : Nat) {j inv : Nat} (hj : j * 2 ^ n ≤ 256)
    (h : (d : ℤ) * inv ≡ 1 [ZMOD 2 ^ j]) : (d : ℤ) * inverseSteps n d inv ≡ 1 [ZMOD 2 ^ (j * 2 ^ n)] := by
  induction n generalizing j inv with
  | zero => simpa [inverseSteps] using h
  | succ n ih =>
    have hexp : j * 2 ^ (n + 1) = 2 * j * 2 ^ n := by ring
    have hle : 2 * j ≤ 256 := (Nat.le_mul_of_pos_right _ (Nat.two_pow_pos n)).trans (hexp ▸ hj)
    rw [hexp] at hj ⊢
    refine ih hj ?_
    rw [Int.toNat_of_nonneg (Int.emod_nonneg _ (by decide))]
    exact (((Int.mod_modEq _ _).of_dvd (pow_dvd_pow 2 hle)).mul_left _).trans (newton_inverse_modEq h)

/-- The seed `(3*d) ^ 2` is an inverse of an odd `d` in its low 4 bits (general-knowledge item G2). -/
theorem inverse_seed_modEq {d : Nat} (hd : Odd d) : d * ((3 * d % 2 ^ 256) ^^^ 2) ≡ 1 [MOD 2 ^ 4] := by
  have hresidues : ∀ r < 16, r % 2 = 1 → r * ((3 * r % 16) ^^^ 2) % 16 = 1 := by decide
  have hseed : ((3 * d % 2 ^ 256) ^^^ 2) % 16 = (3 * (d % 16) % 16) ^^^ 2 := by
    rw [show 16 = 2 ^ 4 from rfl, Nat.xor_mod_two_pow, Nat.mod_mod_of_dvd _ (pow_dvd_pow 2 (by decide)), Nat.mul_mod_mod]
  have hodd : d % 16 % 2 = 1 := by
    have := Nat.odd_iff.1 hd
    omega
  calc d * ((3 * d % 2 ^ 256) ^^^ 2) % 16
      = d % 16 * ((3 * (d % 16) % 16) ^^^ 2) % 16 := by rw [← hseed, ← Nat.mul_mod]
    _ = 1 := hresidues _ (Nat.mod_lt _ (by decide)) hodd

/-- Six steps from the seed are the inverse modulo `2^256`. -/
theorem inverseSteps_seed_modEq {d : Nat} (hd : Odd d) :
    d * inverseSteps 6 d ((3 * d % 2 ^ 256) ^^^ 2) ≡ 1 [MOD 2 ^ 256] := by
  have hseed := Int.natCast_modEq_iff.2 (inverse_seed_modEq hd)
  rw [← Int.natCast_modEq_iff]
  exact_mod_cast inverseSteps_modEq (d := d) 6 (j := 4) (by decide) (by exact_mod_cast hseed)

/-- A quotient below `2^256` is its product with an odd divisor times the divisor's inverse. -/
theorem mul_inverse_mod_eq {q d x inv : Nat} (hq : q < 2 ^ 256) (hx : x ≡ q * d [MOD 2 ^ 256])
    (hinv : d * inv ≡ 1 [MOD 2 ^ 256]) : x * inv % 2 ^ 256 = q := by
  have hcong : x * inv ≡ q [MOD 2 ^ 256] :=
    calc x * inv ≡ q * d * inv [MOD 2 ^ 256] := hx.mul_right inv
      _ = q * (d * inv) := Nat.mul_assoc ..
      _ ≡ q * 1 [MOD 2 ^ 256] := hinv.mul_left q
      _ = q := Nat.mul_one q
  exact Nat.mod_eq_of_modEq hcong hq

/-! ### Taking the power of two out of the divisor and the dividend (R70) -/

/-- The power of two in a number below `2^n` is below `2^n`. -/
theorem exponent_lt_of_two_pow_mul_lt {n k m : Nat} (hm : Odd m) (hlt : 2 ^ k * m < 2 ^ n) : k < n :=
  (Nat.pow_lt_pow_iff_right (by decide)).1 ((Nat.le_mul_of_pos_right _ hm.pos).trans_lt hlt)

/-- `v & (2^n - v)` is the power of two in `v`: below its lowest set bit both are 0, and above it each bit of the one is the other's
turned over. -/
theorem and_two_pow_sub_eq_two_pow {n k m : Nat} (hm : Odd m) (hlt : 2 ^ k * m < 2 ^ n) :
    2 ^ k * m &&& (2 ^ n - 2 ^ k * m) = 2 ^ k := by
  have hkn := exponent_lt_of_two_pow_mul_lt hm hlt
  have hpos := Nat.two_pow_pos k
  obtain ⟨e, rfl⟩ := hm
  have hsplit : 2 ^ k * (2 * e + 1) = 2 ^ (k + 1) * e + 2 ^ k := by ring
  have hpred : 2 ^ k * (2 * e + 1) = 2 ^ (k + 1) * e + (2 ^ k - 1) + 1 := by omega
  have hbits : ∀ i, (2 ^ k * (2 * e + 1)).testBit i = if i < k + 1 then (2 ^ k).testBit i else e.testBit (i - (k + 1)) :=
    fun i => by rw [hsplit, Nat.testBit_two_pow_mul_add _ (by rw [pow_succ]; omega)]
  have hnegBits : ∀ i, (2 ^ n - 2 ^ k * (2 * e + 1)).testBit i =
      (decide (i < n) && !if i < k + 1 then (2 ^ k - 1).testBit i else e.testBit (i - (k + 1))) := fun i => by
    rw [hpred, Nat.testBit_two_pow_sub_succ (by omega), Nat.testBit_two_pow_mul_add _ (by rw [pow_succ]; omega)]
  apply Nat.eq_of_testBit_eq
  intro i
  rw [Nat.testBit_and, hbits, hnegBits, Nat.testBit_two_pow, Nat.testBit_two_pow_sub_one]
  by_cases hi : i < k + 1
  · have hlowest : k = i → i < n ∧ k ≤ i := by omega
    simpa [hi] using hlowest
  · have hne : k ≠ i := by omega
    simp +contextual [hi, hne]

/-- Two halves moved down by `k` bits, as the datapath joins them, are the 512-bit number moved down, modulo `2^256`. -/
theorem joined_halves_modEq (hi : Nat) {lo k : Nat} (hlo : lo < 2 ^ 256) (hk : k ≤ 256) :
    lo / 2 ^ k ||| hi * (2 ^ 256 / 2 ^ k) % 2 ^ 256 ≡ (hi * 2 ^ 256 + lo) / 2 ^ k [MOD 2 ^ 256] := by
  have hpow : (2 : Nat) ^ 256 = 2 ^ (256 - k) * 2 ^ k := by rw [← pow_add, Nat.sub_add_cancel hk]
  have hlow : lo / 2 ^ k < 2 ^ (256 - k) := Nat.div_lt_of_lt_mul (by rwa [Nat.mul_comm, ← hpow])
  have hshift : (hi * 2 ^ 256 + lo) / 2 ^ k = hi * 2 ^ (256 - k) + lo / 2 ^ k := by
    rw [hpow, ← Nat.mul_assoc, Nat.add_comm, Nat.add_mul_div_right _ _ (Nat.two_pow_pos k), Nat.add_comm]
  have hhigh : hi * 2 ^ (256 - k) % 2 ^ 256 = 2 ^ (256 - k) * (hi % 2 ^ k) := by
    rw [hpow, Nat.mul_comm hi, Nat.mul_mod_mul_left]
  rw [hshift, Nat.pow_div hk (by decide), Nat.lor_comm, hhigh, ← Nat.two_pow_add_eq_or_of_lt hlow, ← hhigh]
  exact (Nat.mod_modEq _ _).add_right _

/-! ### The quotient (R70, R71) -/

/-- The quotient does not fit exactly when the high half reaches the divisor (R71). -/
theorem two_pow_le_div_iff {p d : Nat} (hd : 0 < d) : 2 ^ 256 ≤ p / d ↔ d ≤ p / 2 ^ 256 := by
  rw [Nat.le_div_iff_mul_le hd, Nat.le_div_iff_mul_le (by decide), Nat.mul_comm]

/-- A product of one word is divided as one word (R70). -/
theorem muldivDatapath_of_high_zero {a b : Nat} (d : Nat) (hhi : a * b / 2 ^ 256 = 0) :
    muldivDatapath a b d = .ok (a * b / d) := by
  have hlo : a * b % 2 ^ 256 = a * b := by omega
  rw [muldivDatapath, if_pos hhi, hlo]

/-- A high half that reaches the divisor is OVERFLOW (R70, R71). -/
theorem muldivDatapath_of_le_high {a b d : Nat} (hd : 0 < d) (hle : d ≤ a * b / 2 ^ 256) :
    muldivDatapath a b d = .error .overflow := by
  have hhi : a * b / 2 ^ 256 ≠ 0 := by omega
  rw [muldivDatapath, if_neg hhi, if_pos hle]

/-- The remainder taken off the two halves, with the borrow, is the remainder taken off the number. -/
theorem halves_sub (p : Nat) {r : Nat} (hr : r < 2 ^ 256) (hhi : p / 2 ^ 256 ≠ 0) :
    (if p % 2 ^ 256 < r then p / 2 ^ 256 - 1 else p / 2 ^ 256) * 2 ^ 256 + (p % 2 ^ 256 + 2 ^ 256 - r) % 2 ^ 256 = p - r := by
  split <;> omega

/-- The reduction by the inverse is the exact quotient when that fits (R70). -/
theorem muldivDatapath_of_high_lt {a b d : Nat} (hd : d < 2 ^ 256) (hhi : a * b / 2 ^ 256 ≠ 0)
    (hlt : a * b / 2 ^ 256 < d) : muldivDatapath a b d = .ok (a * b / d) := by
  have hd0 : 0 < d := by omega
  have hq : a * b / d < 2 ^ 256 := by
    rwa [← not_le, two_pow_le_div_iff hd0, not_le]
  have hrem : a * b % d < 2 ^ 256 := (Nat.mod_lt _ hd0).trans hd
  obtain ⟨k, m, hm, rfl⟩ := Nat.exists_eq_two_pow_mul_odd hd0.ne'
  have htwos : 2 ^ k * m &&& ((2 ^ 256 - 2 ^ k * m) % 2 ^ 256) = 2 ^ k := by
    rw [Nat.mod_eq_of_lt (by omega), and_two_pow_sub_eq_two_pow hm hd]
  have hodd : 2 ^ k * m / 2 ^ k = m := Nat.mul_div_cancel_left _ (Nat.two_pow_pos k)
  have hexact : (a * b - a * b % (2 ^ k * m)) / 2 ^ k = a * b / (2 ^ k * m) * m := by
    rw [← Nat.div_mul_self_eq_mod_sub_self, Nat.mul_left_comm, Nat.mul_div_cancel_left _ (Nat.two_pow_pos k)]
  have hjoined := joined_halves_modEq
    (if a * b % 2 ^ 256 < a * b % (2 ^ k * m) then a * b / 2 ^ 256 - 1 else a * b / 2 ^ 256)
    (Nat.mod_lt (a * b % 2 ^ 256 + 2 ^ 256 - a * b % (2 ^ k * m)) (by decide)) (exponent_lt_of_two_pow_mul_lt hm hd).le
  rw [halves_sub _ hrem hhi, hexact] at hjoined
  simp only [muldivDatapath, if_neg hhi, if_neg (Nat.not_le.2 hlt), htwos, hodd]
  exact congrArg _ (mul_inverse_mod_eq hq hjoined (inverseSteps_seed_modEq hm))

/-- Settles O59: the halves come from the two residues, and the three branches of the reduction are a one-word quotient, a
quotient that does not fit and the exact division by the odd part's inverse. -/
theorem muldivDatapathComputesFloor : Obligations.MuldivDatapathComputesFloor := by
  intro a b d ha hb
  refine ⟨mulwDatapath_eq ha hb, fun hd0 hd => ⟨fun hfits => ?fits, fun hover => ?overflow⟩⟩
  case fits =>
    by_cases hhi : a * b / 2 ^ 256 = 0
    · exact muldivDatapath_of_high_zero d hhi
    · have hlt : a * b / 2 ^ 256 < d := by
        rw [← not_le, ← two_pow_le_div_iff hd0]
        exact hfits.not_ge
      exact muldivDatapath_of_high_lt hd hhi hlt
  case overflow => exact muldivDatapath_of_le_high hd0 ((two_pow_le_div_iff hd0).1 hover)

end Sys2Proof.Machine
end

section
/-! PROOF. The bit-scan instructions and their informative datapaths (42_bitscan.md R61 to R63). Each step of the
binary search settles one window, and its offset ends at the index as long as the windows still to come reach that far. -/

namespace Sys2Proof.Machine

/-! ### MSB and LSB (R61, R62) -/

/-- An index of a bit is its own zero extension (R9). -/
theorem zext_toNat_of_le {i : Nat} (h : i ≤ 255) : (zext i).toNat = i := by
  have hbound : 255 < 2 ^ 256 := by decide
  rw [zext, BitVec.toNat_ofNat, Nat.mod_eq_of_lt (h.trans_lt hbound)]

/-- An index of a bit completes the instruction. -/
theorem finish_index_completed (op : Byte) (rd : Reg) {i : Nat} (h : i ≤ 255) (s : State) :
    ∃ t, finish op rd (.ok (zext i)) s = .next t ∧ Completed op rd i s t :=
  finish_ok_completed op rd (zext_toNat_of_le h) s

theorem msbValue_ok {v : Word} (h : v.toNat ≠ 0) : msbValue v = .ok (zext (msbIndex v.toNat)) :=
  if_neg h

theorem msbValue_error {v : Word} (h : v.toNat = 0) : msbValue v = .error .zeroInput :=
  if_pos h

theorem lsbValue_ok {v : Word} (h : v.toNat ≠ 0) : lsbValue v = .ok (zext (lsbIndex v.toNat)) :=
  if_neg h

theorem lsbValue_error {v : Word} (h : v.toNat = 0) : lsbValue v = .error .zeroInput :=
  if_pos h

/-- Settles O24: on a non-zero word MSB completes with `msb_index`. -/
theorem msbResult : Obligations.MsbResult := by
  intro rd rs1 s
  refine ⟨packFields_toNat .., fun hne => ?index, fun hzero => ?zero⟩
  case index =>
    have hle := msbIndex_le (s.reg rs1).toNat
    obtain ⟨t, ht, hcompleted⟩ := finish_index_completed 0x10#8 rd hle s
    rw [← msbValue_ok hne] at ht
    exact ⟨t, _, ht, hcompleted, hle, msbIndex_spec _ (Nat.pos_of_ne_zero hne) (s.reg rs1).isLt⟩
  case zero =>
    rw [exec, execMsb, msbValue_error hzero, finish_error]
    exact ⟨_, rfl, Raised.of_raise ..⟩

/-- Settles O25: on a non-zero word LSB completes with `lsb_index`. -/
theorem lsbResult : Obligations.LsbResult := by
  intro rd rs1 s
  refine ⟨packFields_toNat .., fun hne => ?index, fun hzero => ?zero⟩
  case index =>
    have hle := lsbIndex_le (s.reg rs1).toNat
    obtain ⟨t, ht, hcompleted⟩ := finish_index_completed 0x11#8 rd hle s
    rw [← lsbValue_ok hne] at ht
    exact ⟨t, _, ht, hcompleted, hle, lsbIndex_dvd _,
      fun j => lsbIndex_greatest _ j (Nat.pos_of_ne_zero hne) (s.reg rs1).isLt⟩
  case zero =>
    rw [exec, execLsb, lsbValue_error hzero, finish_error]
    exact ⟨_, rfl, Raised.of_raise ..⟩

/-! ### The binary search (R63) -/

/-- Every window is at most one more than the later ones together, so that these still reach each index below it. -/
def WindowsCover : List Nat → Prop
  | [] => True
  | k :: ks => k ≤ ks.sum + 1 ∧ WindowsCover ks

theorem scanWindows_sum : scanWindows.sum = 255 := rfl

theorem scanWindows_cover : WindowsCover scanWindows := by
  simp [scanWindows, WindowsCover]

theorem msbScan_cons_of_le {k v : Nat} (h : 2 ^ k ≤ v) (ks : List Nat) (r : Nat) :
    msbScan (k :: ks) v r = msbScan ks (v / 2 ^ k) (r + k) :=
  if_pos h

theorem msbScan_cons_of_lt {k v : Nat} (h : v < 2 ^ k) (ks : List Nat) (r : Nat) :
    msbScan (k :: ks) v r = msbScan ks v r :=
  if_neg (Nat.not_le.2 h)

theorem lsbScan_cons_of_dvd {k v : Nat} (h : 2 ^ k ∣ v) (ks : List Nat) (r : Nat) :
    lsbScan (k :: ks) v r = lsbScan ks (v / 2 ^ k) r :=
  if_neg (not_not.2 (Nat.mod_eq_zero_of_dvd h))

theorem lsbScan_cons_of_not_dvd {k v : Nat} (h : ¬ 2 ^ k ∣ v) (ks : List Nat) (r : Nat) :
    lsbScan (k :: ks) v r = lsbScan ks v (r - k) :=
  if_pos fun hmod => h (Nat.dvd_of_mod_eq_zero hmod)

/-- The scan adds the logarithm to the offset: a window that is found takes its size off the logarithm, and the logarithm is
below one that is not. -/
theorem msbScan_eq_add_log {ks : List Nat} (hcover : WindowsCover ks) {v : Nat} (r : Nat) (hv : v ≠ 0)
    (hle : Nat.log 2 v ≤ ks.sum) : msbScan ks v r = r + Nat.log 2 v := by
  induction ks generalizing v r with
  | nil => rw [Nat.le_zero.1 hle, msbScan, Nat.add_zero]
  | cons k ks ih =>
    obtain ⟨hk, hcover⟩ := hcover
    rw [List.sum_cons] at hle
    by_cases hfound : 2 ^ k ≤ v
    · have hklog : k ≤ Nat.log 2 v := Nat.le_log_of_pow_le (by decide) hfound
      have hlog : Nat.log 2 (v / 2 ^ k) = Nat.log 2 v - k := Nat.log_div_base_pow ..
      have hne : v / 2 ^ k ≠ 0 := (Nat.div_pos hfound (Nat.two_pow_pos k)).ne'
      rw [msbScan_cons_of_le hfound, ih hcover _ hne (by omega), hlog]
      omega
    · have hlt := Nat.not_le.1 hfound
      have hlog : Nat.log 2 v < k := Nat.log_lt_of_lt_pow hv hlt
      rw [msbScan_cons_of_lt hlt, ih hcover _ hv (by omega)]

/-- The scan takes all the windows off the offset and leaves the exponent of 2 in the word: a window whose power divides the
word takes its size off the exponent, and the exponent is below any other. -/
theorem lsbScan_eq_add_padicValNat {ks : List Nat} (hcover : WindowsCover ks) {v r : Nat} (hv : v ≠ 0)
    (hle : padicValNat 2 v ≤ ks.sum) (hr : ks.sum ≤ r) : lsbScan ks v r = r - ks.sum + padicValNat 2 v := by
  induction ks generalizing v r with
  | nil => rw [Nat.le_zero.1 hle, lsbScan, List.sum_nil, Nat.sub_zero, Nat.add_zero]
  | cons k ks ih =>
    obtain ⟨hk, hcover⟩ := hcover
    rw [List.sum_cons] at hle hr ⊢
    have hdvd : 2 ^ k ∣ v ↔ k ≤ padicValNat 2 v := padicValNat_dvd_iff_le hv
    by_cases hfound : 2 ^ k ∣ v
    · have hkval := hdvd.1 hfound
      have hval : padicValNat 2 (v / 2 ^ k) = padicValNat 2 v - k := padicValNat.div_pow hfound
      have hne : v / 2 ^ k ≠ 0 := (Nat.div_pos (Nat.le_of_dvd (Nat.pos_of_ne_zero hv) hfound) (Nat.two_pow_pos k)).ne'
      rw [lsbScan_cons_of_dvd hfound, ih hcover hne (by omega) (by omega), hval]
      omega
    · have hval : padicValNat 2 v < k := Nat.not_le.1 (hdvd.not.1 hfound)
      rw [lsbScan_cons_of_not_dvd hfound, ih hcover hv (by omega) (by omega)]
      omega

/-- A non-zero word's logarithm is the index of a bit. -/
theorem log_le_of_word {v : Nat} (hv : v ≠ 0) (h : v < 2 ^ 256) : Nat.log 2 v ≤ 255 :=
  Nat.le_of_lt_succ (Nat.log_lt_of_lt_pow hv h)

theorem msbDatapath_eq_log {v : Nat} (hv : v ≠ 0) (h : v < 2 ^ 256) : msbDatapath v = Nat.log 2 v := by
  rw [msbDatapath, msbScan_eq_add_log scanWindows_cover 0 hv (scanWindows_sum ▸ log_le_of_word hv h), Nat.zero_add]

theorem lsbDatapath_eq_padicValNat {v : Nat} (hv : v ≠ 0) (h : v < 2 ^ 256) : lsbDatapath v = padicValNat 2 v := by
  have hle : padicValNat 2 v ≤ 255 := (padicValNat_le_nat_log v).trans (log_le_of_word hv h)
  rw [lsbDatapath, lsbScan_eq_add_padicValNat scanWindows_cover hv (scanWindows_sum ▸ hle) scanWindows_sum.le,
    scanWindows_sum, Nat.sub_self, Nat.zero_add]

/-- Settles O57: the scans are the logarithm to the base 2 and the exponent of 2. -/
theorem bitScanDatapathsComputeIndices : Obligations.BitScanDatapathsComputeIndices := by
  intro v hpos hlt
  have hv := hpos.ne'
  rw [msbDatapath_eq_log hv hlt, lsbDatapath_eq_padicValNat hv hlt]
  exact ⟨⟨Nat.pow_log_le_self 2 hv, Nat.lt_pow_succ_log_self (by decide) v⟩, pow_padicValNat_dvd,
    pow_succ_padicValNat_not_dvd hv⟩

end Sys2Proof.Machine
end

section
/-! PROOF. SQRT and its informative datapath (43_isqrt.md R65, R66). The seed is within a factor `√8` of the root, and a Newton
step squares the relative distance `(r - √v) / (r + √v)`, so seven of them take it below every word's rounding error. -/

namespace Sys2Proof.Machine

/-! ### SQRT (R65) -/

/-- Settles O26: SQRT completes with `isqrt`, which is below `2^128` for every word. -/
theorem sqrtResult : Obligations.SqrtResult := by
  intro rd rs1 s
  have hlong : (s.reg rs1).toNat < 2 ^ 512 := (s.reg rs1).isLt.trans (by gcongr <;> decide)
  obtain ⟨hle, hlt⟩ := isqrt_spec (s.reg rs1).toNat hlong
  have hroot : isqrt (s.reg rs1).toNat < 2 ^ 128 := root_lt hle (s.reg rs1).isLt
  have hword : isqrt (s.reg rs1).toNat < 2 ^ 256 := hroot.trans (by decide)
  exact ⟨packFields_toNat .., _, _, finish_ok .., Completed.of_ofNat 0x18#8 rd hword s, Nat.le_pred_of_lt hroot, hle, hlt⟩

/-! ### The seed (R66) -/

/-- The last `n` rows of the seed's table: each has half the exponents of the row before it. -/
def seedRows : Nat → List (Nat × Nat)
  | 0 => []
  | n + 1 => (2 ^ (n + 2), 2 ^ (n + 1)) :: seedRows n

theorem seedTable_eq_seedRows : seedTable = seedRows 6 := rfl

theorem sqrtSeed_cons_of_le {t xx : Nat} (h : 2 ^ t ≤ xx) (f : Nat) (rows : List (Nat × Nat)) (r : Nat) :
    sqrtSeed ((t, f) :: rows) xx r = sqrtSeed rows (xx / 2 ^ t) (r * 2 ^ f) :=
  if_pos h

theorem sqrtSeed_cons_of_lt {t xx : Nat} (h : xx < 2 ^ t) (f : Nat) (rows : List (Nat × Nat)) (r : Nat) :
    sqrtSeed ((t, f) :: rows) xx r = sqrtSeed rows xx r :=
  if_neg (Nat.not_le.2 h)

/-- `n` rows multiply the guess by a number whose square is at most what is left of the word, and more than an eighth of it. -/
theorem sqrtSeed_seedRows (n : Nat) {xx : Nat} (r : Nat) (hpos : 0 < xx) (hlt : xx < 2 ^ 2 ^ (n + 2)) :
    ∃ g, sqrtSeed (seedRows n) xx r = r * g ∧ g * g ≤ xx ∧ xx < 8 * (g * g) := by
  induction n generalizing xx r with
  | zero =>
    by_cases hfound : 2 ^ 3 ≤ xx
    · exact ⟨2, if_pos hfound, by omega, by omega⟩
    · exact ⟨1, (if_neg hfound).trans (Nat.mul_one r).symm, by omega, by omega⟩
  | succ n ih =>
    by_cases hfound : 2 ^ 2 ^ (n + 2) ≤ xx
    · have hsq : 2 ^ 2 ^ (n + 2) = 2 ^ 2 ^ (n + 1) * 2 ^ 2 ^ (n + 1) := by rw [← pow_add, ← two_mul, ← pow_succ']
      have hrest : xx / 2 ^ 2 ^ (n + 2) < 2 ^ 2 ^ (n + 2) := by
        refine Nat.div_lt_of_lt_mul ?_
        rwa [← pow_add, ← two_mul, ← pow_succ']
      obtain ⟨g, hseed, hle, hgt⟩ := ih (r * 2 ^ 2 ^ (n + 1)) (Nat.div_pos hfound (Nat.two_pow_pos _)) hrest
      rw [Nat.le_div_iff_mul_le (Nat.two_pow_pos _), hsq] at hle
      rw [Nat.div_lt_iff_lt_mul (Nat.two_pow_pos _), hsq] at hgt
      refine ⟨2 ^ 2 ^ (n + 1) * g, ?_, ?_, ?_⟩
      · rw [seedRows, sqrtSeed_cons_of_le hfound, hseed, Nat.mul_assoc]
      · rwa [Nat.mul_mul_mul_comm, Nat.mul_comm]
      · rwa [Nat.mul_mul_mul_comm, Nat.mul_comm (_ * _), ← Nat.mul_assoc]
    · have hsmall := Nat.not_le.1 hfound
      rw [seedRows, sqrtSeed_cons_of_lt hsmall]
      exact ih r hpos hsmall

/-- The seed of a word is at most its root, and more than the root's `√8`-th part. -/
theorem sqrtSeed_seedTable {v : Nat} (hpos : 0 < v) (hlt : v < 2 ^ 256) :
    sqrtSeed seedTable v 1 * sqrtSeed seedTable v 1 ≤ v ∧ v < 8 * (sqrtSeed seedTable v 1 * sqrtSeed seedTable v 1) := by
  obtain ⟨g, hseed, hbounds⟩ := sqrtSeed_seedRows 6 1 hpos hlt
  rwa [seedTable_eq_seedRows, hseed, Nat.one_mul]

/-! ### The minimum (R66) -/

/-- A guess above the root whose predecessor times it is at most `v` has its predecessor as quotient. -/
theorem div_eq_pred {v r : Nat} (hr : 0 < r) (hover : v < r * r) (hpred : (r - 1) * r ≤ v) : v / r = r - 1 :=
  Nat.div_eq_of_lt_le hpred (by rwa [Nat.sub_add_cancel hr])

/-- The minimum of a guess and its quotient is the floor root when the guess is not below the floor root and its predecessor
times it is at most `v`. -/
theorem min_div_isRoot {v r : Nat} (hr : 0 < r) (hlow : v < (r + 1) * (r + 1)) (hpred : (r - 1) * r ≤ v) :
    min r (v / r) * min r (v / r) ≤ v ∧ v < (min r (v / r) + 1) * (min r (v / r) + 1) := by
  by_cases hover : v < r * r
  · rw [div_eq_pred hr hover hpred, Nat.min_eq_right (Nat.sub_le ..), Nat.sub_add_cancel hr]
    exact ⟨(Nat.mul_le_mul_left _ (Nat.sub_le ..)).trans hpred, hover⟩
  · have hle := Nat.not_lt.1 hover
    rw [Nat.min_eq_left ((Nat.le_div_iff_mul_le hr).2 hle)]
    exact ⟨hle, hlow⟩

/-! ### One Newton step (R66) -/

/-- `r <- (r + v div r) div 2`. -/
def newtonStep (v r : Nat) : Nat :=
  (r + v / r) / 2

theorem newtonSteps_succ (n v r : Nat) : newtonSteps (n + 1) v r = newtonSteps n v (newtonStep v r) := rfl

/-- A step never falls below the floor root: `v < r * (v div r + 1)`, and a product is at most the square of half its factors'
sum. -/
theorem lt_newtonStep_succ_sq {v r : Nat} (hr : 0 < r) : v < (newtonStep v r + 1) * (newtonStep v r + 1) := by
  have hv : v < r * (v / r + 1) := Nat.lt_mul_div_succ v hr
  have hsum : r + v / r + 1 ≤ 2 * (newtonStep v r + 1) := by
    unfold newtonStep
    omega
  have hfour : 4 * v < 4 * ((newtonStep v r + 1) * (newtonStep v r + 1)) :=
    calc 4 * v < 4 * r * (v / r + 1) := by rw [Nat.mul_assoc]; omega
      _ ≤ (r + v / r + 1) ^ 2 := four_mul_le_pow_two_add ..
      _ ≤ (2 * (newtonStep v r + 1)) ^ 2 := Nat.pow_le_pow_left hsum 2
      _ = 4 * ((newtonStep v r + 1) * (newtonStep v r + 1)) := by ring
  exact Nat.lt_of_mul_lt_mul_left hfour

/-- A guess at which the minimum is the floor root is followed by another: the floor root by itself or the next number, the
next number by the floor root. -/
theorem newtonStep_pred_mul_le {v r : Nat} (hr : 0 < r) (hlow : v < (r + 1) * (r + 1)) (hpred : (r - 1) * r ≤ v) :
    (newtonStep v r - 1) * newtonStep v r ≤ v := by
  by_cases hover : v < r * r
  · have hstep : newtonStep v r = r - 1 := by
      rw [newtonStep, div_eq_pred hr hover hpred]
      omega
    rw [hstep]
    exact (Nat.mul_le_mul (Nat.sub_le ..) (Nat.sub_le ..)).trans hpred
  · have hquot : v / r < r + 3 := (Nat.div_lt_iff_lt_mul hr).2 (by linarith)
    have hge : r ≤ v / r := (Nat.le_div_iff_mul_le hr).2 (Nat.not_lt.1 hover)
    by_cases htop : r + 2 ≤ v / r
    · have hstep : newtonStep v r = r + 1 := by
        unfold newtonStep
        omega
      have hle : (r + 2) * r ≤ v := (Nat.le_div_iff_mul_le hr).1 htop
      rw [hstep, Nat.add_sub_cancel]
      linarith
    · have hstep : newtonStep v r = r := by
        unfold newtonStep
        omega
      rwa [hstep]

/-- A step squares the relative distance from the root: the exact mean `y` has `y - √v = (r - √v)² / 2r` and
`y + √v = (r + √v)² / 2r`, and rounding `y` down only lowers the distance. -/
theorem newtonStep_sub_sqrt_le {v r : Nat} {ρ : ℝ} (hr : 0 < r) (hρ0 : 0 ≤ ρ) (hρ : ρ ≤ 1)
    (h : |(r : ℝ) - √v| ≤ ρ * (r + √v)) : newtonStep v r - √v ≤ ρ ^ 2 * (newtonStep v r + √v) := by
  have hr' : (0 : ℝ) < r := Nat.cast_pos.2 hr
  have hv : √(v : ℝ) ^ 2 = v := Real.sq_sqrt (Nat.cast_nonneg v)
  have hfloor : (newtonStep v r : ℝ) ≤ (r + v / r) / 2 :=
    calc (newtonStep v r : ℝ) ≤ (r + v / r : Nat) / 2 := Nat.cast_div_le
      _ ≤ (r + v / r) / 2 := by
        rw [Nat.cast_add]
        gcongr
        exact Nat.cast_div_le
  have hsub : (r + v / r) / 2 - √(v : ℝ) = (r - √v) ^ 2 / (2 * r) := by
    field_simp
    linear_combination -hv
  have hadd : (r + v / r) / 2 + √(v : ℝ) = (r + √v) ^ 2 / (2 * r) := by
    field_simp
    linear_combination -hv
  have hsq : (r - √(v : ℝ)) ^ 2 ≤ ρ ^ 2 * (r + √v) ^ 2 := by
    rw [← mul_pow, ← sq_abs]
    exact pow_le_pow_left₀ (abs_nonneg _) h 2
  have hmean : (r + v / r) / 2 - √(v : ℝ) ≤ ρ ^ 2 * ((r + v / r) / 2 + √v) := by
    rw [hsub, hadd, ← mul_div_assoc]
    gcongr
  have hρ2 : ρ ^ 2 ≤ 1 := pow_le_one₀ hρ0 hρ
  nlinarith [mul_le_mul_of_nonneg_left hfloor (sub_nonneg.2 hρ2)]

/-! ### The iteration (R66) -/

/-- The guess `r` is not below the floor root of `v`, and either its predecessor times it is at most `v`, or its relative distance
from the root is at most `ρ`. -/
def NearRoot (ρ : ℝ) (v r : Nat) : Prop :=
  v < (r + 1) * (r + 1) ∧ ((r - 1) * r ≤ v ∨ r - √(v : ℝ) ≤ ρ * (r + √v))

theorem pos_of_lt_succ_sq {v r : Nat} (hv : 0 < v) (hlow : v < (r + 1) * (r + 1)) : 0 < r := by
  rcases Nat.eq_zero_or_pos r with rfl | hr
  · omega
  · exact hr

/-- A guess whose predecessor times it is above `v` is not below the root. -/
theorem sqrt_le_of_lt_pred_mul {v r : Nat} (h : v < (r - 1) * r) : √(v : ℝ) ≤ r := by
  have hsq : v ≤ r ^ 2 := h.le.trans (sq r ▸ Nat.mul_le_mul_right r (Nat.sub_le ..))
  exact Real.sqrt_le_iff.2 ⟨Nat.cast_nonneg r, mod_cast hsq⟩

/-- A step keeps the first alternative, and squares the bound of the second. -/
theorem nearRoot_newtonStep {ρ : ℝ} {v r : Nat} (hv : 0 < v) (hρ0 : 0 ≤ ρ) (hρ : ρ ≤ 1) (h : NearRoot ρ v r) :
    NearRoot (ρ ^ 2) v (newtonStep v r) := by
  obtain ⟨hlow, hdist⟩ := h
  have hr := pos_of_lt_succ_sq hv hlow
  refine ⟨lt_newtonStep_succ_sq hr, ?_⟩
  by_cases hpred : (r - 1) * r ≤ v
  · exact .inl (newtonStep_pred_mul_le hr hlow hpred)
  · have habove := sqrt_le_of_lt_pred_mul (Nat.not_le.1 hpred)
    refine .inr (newtonStep_sub_sqrt_le hr hρ0 hρ ?_)
    rw [abs_of_nonneg (sub_nonneg.2 habove)]
    exact hdist.resolve_left hpred

theorem nearRoot_newtonSteps (n : Nat) {ρ : ℝ} {v r : Nat} (hv : 0 < v) (hρ0 : 0 ≤ ρ) (hρ : ρ ≤ 1)
    (h : NearRoot ρ v r) : NearRoot (ρ ^ 2 ^ n) v (newtonSteps n v r) := by
  induction n generalizing ρ r with
  | zero => rwa [pow_zero, pow_one]
  | succ n ih =>
    rw [newtonSteps_succ, pow_succ', pow_mul]
    exact ih (sq_nonneg ρ) (pow_le_one₀ hρ0 hρ) (nearRoot_newtonStep hv hρ0 hρ h)

/-- The seed is at most the root and above its `√8`-th part, so its relative distance is at most `11/23`. -/
theorem seed_dist_le {v r : Nat} (hle : r * r ≤ v) (hgt : v < 8 * (r * r)) : |(r : ℝ) - √v| ≤ 11 / 23 * (r + √v) := by
  have hbelow : (r : ℝ) ≤ √v := Real.le_sqrt_of_sq_le (by rw [sq]; exact_mod_cast hle)
  have heighth : (v : ℝ) ≤ 8 * (r * r) := mod_cast hgt.le
  have habove : √(v : ℝ) ≤ 17 / 6 * r := Real.sqrt_le_iff.2 ⟨by positivity, by nlinarith⟩
  rw [abs_of_nonpos (sub_nonpos.2 hbelow)]
  linarith

/-- Seven steps from a guess within the seed's bounds: the first lifts it to the floor root or above, as `NearRoot` asks. -/
theorem nearRoot_newtonSteps_of_seed {v r : Nat} (hr : 0 < r) (hle : r * r ≤ v) (hgt : v < 8 * (r * r)) :
    NearRoot (((11 / 23) ^ 2) ^ 2 ^ 6) v (newtonSteps 7 v r) := by
  have hv : 0 < v := (Nat.mul_pos hr hr).trans_le hle
  have hfirst : NearRoot ((11 / 23) ^ 2) v (newtonStep v r) :=
    ⟨lt_newtonStep_succ_sq hr, .inr (newtonStep_sub_sqrt_le hr (by norm_num) (by norm_num) (seed_dist_le hle hgt))⟩
  rw [newtonSteps_succ]
  exact nearRoot_newtonSteps 6 hv (by norm_num) (by norm_num) hfirst

/-- For a word, whose root is at most `2^128`, a relative distance of `2^(-131)` is a distance below a half, and
`r * r - v = (r - √v) * (r + √v)` is then at most `r`. -/
theorem NearRoot.pred_mul_le {ρ : ℝ} {v r : Nat} (hv : v < 2 ^ 256) (hρ : ρ ≤ 1 / 2 ^ 131) (h : NearRoot ρ v r) :
    (r - 1) * r ≤ v := by
  obtain ⟨-, hpred | hdist⟩ := h
  · exact hpred
  by_contra hpred
  have habove := sqrt_le_of_lt_pred_mul (Nat.not_le.1 hpred)
  have hsq : √(v : ℝ) * √v = v := Real.mul_self_sqrt (Nat.cast_nonneg v)
  have hroot : √(v : ℝ) ≤ 2 ^ 128 := Real.sqrt_le_iff.2 ⟨by positivity, by rw [← pow_mul]; exact_mod_cast hv.le⟩
  have hdist : r - √(v : ℝ) ≤ 1 / 2 ^ 131 * (r + √v) := hdist.trans (by gcongr)
  have hhalf : r - √(v : ℝ) ≤ 1 / 2 := by linarith
  have hreal : (r : ℝ) * r ≤ v + r :=
    calc (r : ℝ) * r = v + (r - √v) * (r + √v) := by linear_combination hsq
      _ ≤ v + 1 / 2 * (r + r) := by gcongr
      _ = v + r := by ring
  have hnat : r * r ≤ v + r := mod_cast hreal
  rw [Nat.sub_mul] at hpred
  omega

/-- Settles O58: seven steps from the seed leave a guess at which the minimum is the floor root. -/
theorem newtonDatapathComputesIsqrt : Obligations.NewtonDatapathComputesIsqrt := by
  intro v hlt
  by_cases hzero : v = 0
  · subst hzero
    decide
  · have hpos := Nat.pos_of_ne_zero hzero
    obtain ⟨hle, hgt⟩ := sqrtSeed_seedTable hpos hlt
    have hseed : 0 < sqrtSeed seedTable v 1 := Nat.pos_of_ne_zero fun h => by simp [h] at hgt
    have hnear := nearRoot_newtonSteps_of_seed hseed hle hgt
    have hlow := hnear.1
    have hpred := hnear.pred_mul_le hlt (by norm_num)
    rw [sqrtDatapath, if_neg hzero]
    exact min_div_isRoot (pos_of_lt_succ_sq hpos hlow) hlow hpred

end Sys2Proof.Machine
end

section
/-! PROOF. MULDIV and MULDIVUP (44_muldiv.md R68, R69, R71): a zero divisor raises DIVISION_BY_ZERO, and any other divisor leaves
the quotient to the width check. -/

namespace Sys2Proof.Machine

/-! ### The zero divisor, tested first (R68, R69) -/

theorem exec_muldiv_of_zero {rs3 : Reg} {s : State} (hzero : (s.reg rs3).toNat = 0) (rd rs1 rs2 : Reg) :
    exec (.muldiv rd rs1 rs2 rs3) s = .next (s.raise .divisionByZero 0x20#8) := by
  rw [exec, execMuldiv, muldivValue, if_pos hzero, finish_error]

theorem exec_muldiv_of_ne_zero {rs3 : Reg} {s : State} (hne : (s.reg rs3).toNat ≠ 0) (rd rs1 rs2 : Reg) :
    exec (.muldiv rd rs1 rs2 rs3) s =
      finish 0x20#8 rd (fits wordBound ((s.reg rs1).toNat * (s.reg rs2).toNat / (s.reg rs3).toNat)) s := by
  rw [exec, execMuldiv, muldivValue, if_neg hne]

theorem exec_muldivup_of_zero {rs3 : Reg} {s : State} (hzero : (s.reg rs3).toNat = 0) (rd rs1 rs2 : Reg) :
    exec (.muldivup rd rs1 rs2 rs3) s = .next (s.raise .divisionByZero 0x21#8) := by
  rw [exec, execMuldivup, muldivupValue, if_pos hzero, finish_error]

theorem exec_muldivup_of_ne_zero {rs3 : Reg} {s : State} (hne : (s.reg rs3).toNat ≠ 0) (rd rs1 rs2 : Reg) :
    exec (.muldivup rd rs1 rs2 rs3) s =
      finish 0x21#8 rd (fits wordBound (cdiv ((s.reg rs1).toNat * (s.reg rs2).toNat) (s.reg rs3).toNat)) s := by
  rw [exec, execMuldivup, muldivupValue, if_neg hne]

/-! ### A checked result, on either side of its bound (R13) -/

/-- One state serves both ends: the instruction completes below the bound and raises OVERFLOW from there on. -/
theorem finish_fits_ends (op : Byte) (rd : Reg) {bound : Nat} (hbound : bound ≤ wordBound) (v : Nat) (s : State) :
    ∃ t, finish op rd (fits bound v) s = .next t ∧ (v < bound → Completed op rd v s t) ∧
      (bound ≤ v → Raised op .overflow s t) := by
  rcases Nat.lt_or_ge v bound with hlt | hge
  · obtain ⟨t, ht, hcompleted⟩ := finish_fits_completed op rd hbound hlt s
    exact ⟨t, ht, fun _ => hcompleted, fun hge => absurd hlt hge.not_gt⟩
  · obtain ⟨t, ht, hraised⟩ := finish_fits_raised op rd hge s
    exact ⟨t, ht, fun hlt => absurd hlt hge.not_gt, fun _ => hraised⟩

/-! ### The error in STATUS and the product's high half (R71) -/

/-- A checked result leaves OVERFLOW or no error in STATUS, as it reaches its bound or not (R13, R90, R91). -/
theorem finish_fits_err (op : Byte) (rd : Reg) (bound v : Nat) (s : State) :
    ∃ u, finish op rd (fits bound v) s = .next u ∧ (u.status.err = .overflow ↔ bound ≤ v) ∧
      (u.status.err = .noError ↔ v < bound) := by
  rcases fits_cases bound v with ⟨hlt, hfits⟩ | ⟨hle, hfits⟩
  · rw [hfits, finish_ok]
    exact ⟨_, rfl, by simp [hlt], by simp [hlt]⟩
  · rw [hfits, finish_error]
    exact ⟨_, rfl, by simp [hle], by simp [hle]⟩

/-- MULW writes the exact high half of the product to its second destination (R54). -/
theorem exec_mulw_high {lo hi : Reg} (hne : lo ≠ hi) (rs1 rs2 : Reg) (s : State) :
    ∃ t, exec (.mulw lo hi rs1 rs2) s = .next t ∧
      (t.reg hi).toNat = (s.reg rs1).toNat * (s.reg rs2).toNat / 2 ^ 256 := by
  have hword : (s.reg rs1).toNat * (s.reg rs2).toNat / 2 ^ 256 < 2 ^ 256 :=
    (mul_div_le_of_word (s.reg rs1).isLt (s.reg rs2).isLt).trans_lt (by decide)
  refine ⟨_, execMulw_ne hne rs1 rs2 s, ?_⟩
  rw [State.reg_complete, State.reg_setReg_same, BitVec.toNat_ofNat]
  exact Nat.mod_eq_of_lt hword

/-! ### The statements -/

/-- Settles O28: the rounded-up quotient of a non-zero divisor is `cdiv`, checked against the word's bound. -/
theorem muldivupResult : Obligations.MuldivupResult := by
  intro rd rs1 rs2 rs3 s
  refine ⟨packFields_toNat .., fun hzero => ?zero, fun hne => ?quotient⟩
  case zero => exact ⟨_, exec_muldivup_of_zero hzero .., Raised.of_raise ..⟩
  case quotient =>
    obtain ⟨hcovers, hleast⟩ := cdiv_spec ((s.reg rs1).toNat * (s.reg rs2).toNat) _ (Nat.pos_of_ne_zero hne)
    obtain ⟨t, ht, hcompleted, hraised⟩ := finish_fits_ends 0x21#8 rd le_rfl _ s
    exact ⟨t, _, (exec_muldivup_of_ne_zero hne ..).trans ht, hcovers, hleast, hcompleted, hraised⟩

/-- Settles O29: the quotient reaches `2^256` exactly when the product's high half reaches the divisor. -/
theorem muldivOverflowsWhenHighHalfReachesDivisor : Obligations.MuldivOverflowsWhenHighHalfReachesDivisor := by
  intro lo hi rd rs1 rs2 rs3 s hne hdiv
  obtain ⟨t, ht, hhigh⟩ := exec_mulw_high hne rs1 rs2 s
  obtain ⟨u, hu, hoverflow, hnone⟩ :=
    finish_fits_err 0x20#8 rd wordBound ((s.reg rs1).toNat * (s.reg rs2).toNat / (s.reg rs3).toNat) s
  have hreach := two_pow_le_div_iff (p := (s.reg rs1).toNat * (s.reg rs2).toNat) (Nat.pos_of_ne_zero hdiv)
  rw [← hhigh] at hreach
  refine ⟨t, u, ht, (exec_muldiv_of_ne_zero hdiv ..).trans hu, hoverflow.trans hreach, hnone.trans ?_⟩
  exact not_le.symm.trans (hreach.not.trans not_le)

/-- Settles O27: the floor of a non-zero divisor is checked against the word's bound. -/
theorem muldivResult : Obligations.MuldivResult := by
  intro rd rs1 rs2 rs3 s
  refine ⟨packFields_toNat .., fun hzero => ?zero, fun hne hlt => ?quotient, fun hne hge => ?overflow⟩
  case zero => exact ⟨_, exec_muldiv_of_zero hzero .., Raised.of_raise ..⟩
  case quotient =>
    rw [exec_muldiv_of_ne_zero hne]
    exact finish_fits_completed 0x20#8 rd le_rfl hlt s
  case overflow =>
    rw [exec_muldiv_of_ne_zero hne]
    exact finish_fits_raised 0x20#8 rd hge s

end Sys2Proof.Machine
end

section
/-! PROOF. ENCODE, ENCODE144, DECODE, DECODE144 and FPMUL (45_fixedpoint.md R72 to R76): each domain check has a value and an
error, and a value is below `2^256`. -/

namespace Sys2Proof.Machine

/-! ### How a value ends (R90, R91) -/

/-- A number that fits a word completes the instruction. -/
theorem finish_ofNat_completed (op : Byte) (rd : Reg) {value : Except ErrorCode Word} {v : Nat}
    (hvalue : value = .ok (BitVec.ofNat 256 v)) (h : v < 2 ^ 256) (s : State) :
    ∃ t, finish op rd value s = .next t ∧ Completed op rd v s t := by
  rw [hvalue, finish_ok]
  exact ⟨_, rfl, Completed.of_ofNat op rd h s⟩

/-- An error is raised. -/
theorem finish_error_raised (op : Byte) (rd : Reg) {value : Except ErrorCode Word} {e : ErrorCode}
    (hvalue : value = .error e) (s : State) :
    ∃ t, finish op rd value s = .next t ∧ Raised op e s t := by
  rw [hvalue, finish_error]
  exact ⟨_, rfl, Raised.of_raise op e s⟩

/-! ### The values (R72 to R75) -/

theorem encodeValue_ok {v : Word} (h : v.toNat < 2 ^ 112) : encodeValue v = .ok (BitVec.ofNat 256 (v.toNat * 2 ^ 112)) :=
  if_pos h

theorem encodeValue_error {v : Word} (h : 2 ^ 112 ≤ v.toNat) : encodeValue v = .error .invalidDomain :=
  if_neg (Nat.not_lt.2 h)

theorem encode144Value_ok {v : Word} (h : v.toNat < 2 ^ 144) :
    encode144Value v = .ok (BitVec.ofNat 256 (v.toNat * 2 ^ 112)) :=
  if_pos h

theorem encode144Value_error {v : Word} (h : 2 ^ 144 ≤ v.toNat) : encode144Value v = .error .invalidDomain :=
  if_neg (Nat.not_lt.2 h)

theorem decodeValue_ok {r : Word} (h : r.toNat < 2 ^ 224) : decodeValue r = .ok (BitVec.ofNat 256 (r.toNat / 2 ^ 112)) :=
  if_pos h

theorem decodeValue_error {r : Word} (h : 2 ^ 224 ≤ r.toNat) : decodeValue r = .error .overflow :=
  if_neg (Nat.not_lt.2 h)

/-- A word divided by a number is below `2^256`. -/
theorem toNat_div_lt (r : Word) (n : Nat) : r.toNat / n < 2 ^ 256 :=
  (Nat.div_le_self ..).trans_lt r.isLt

/-! ### The statements -/

/-- Settles O30: below `2^112` the scaled value is below `2^224`. -/
theorem encodeResult : Obligations.EncodeResult := fun rd _ s =>
  ⟨packFields_toNat .., fun h => finish_ofNat_completed 0x30#8 rd (encodeValue_ok h) (by omega) s,
    fun h => finish_error_raised 0x30#8 rd (encodeValue_error h) s⟩

/-- Settles O31: below `2^144` the scaled value is below `2^256`. -/
theorem encode144Result : Obligations.Encode144Result := fun rd _ s =>
  ⟨packFields_toNat .., fun h => finish_ofNat_completed 0x31#8 rd (encode144Value_ok h) (by omega) s,
    fun h => finish_error_raised 0x31#8 rd (encode144Value_error h) s⟩

/-- Settles O32: DECODE is the quotient by the scale, after the test of the raw. -/
theorem decodeResult : Obligations.DecodeResult := fun rd _ s =>
  ⟨packFields_toNat .., fun h => finish_ofNat_completed 0x32#8 rd (decodeValue_ok h) (toNat_div_lt ..) s,
    fun h => finish_error_raised 0x32#8 rd (decodeValue_error h) s⟩

/-- Settles O33: DECODE144 has no error, and its value is the quotient by the scale. -/
theorem decode144Result : Obligations.Decode144Result := fun rd _ s =>
  ⟨packFields_toNat .., finish_ofNat_completed 0x33#8 rd rfl (toNat_div_lt ..) s⟩

/-- Settles O34: the encoded raw is below `2^224`, and the scale divides it out again. -/
theorem decodeUndoesEncode : Obligations.DecodeUndoesEncode := by
  intro a b c s hdomain
  obtain ⟨-, hencode, -⟩ := encodeResult b a s
  obtain ⟨t, ht, hencoded⟩ := hencode hdomain
  have hraw : (t.reg b).toNat < 2 ^ 224 := by
    rw [hencoded.result]
    omega
  obtain ⟨-, hdecode, -⟩ := decodeResult c b t
  obtain ⟨u, hu, hdecoded⟩ := hdecode hraw
  have hback : (u.reg c).toNat = (s.reg a).toNat := by
    rw [hdecoded.result, hencoded.result, Nat.mul_div_cancel _ (Nat.two_pow_pos 112)]
  obtain ⟨-, -, hkeptByEncode⟩ := hencoded.status
  obtain ⟨hnone, -, hkeptByDecode⟩ := hdecoded.status
  exact ⟨t, u, ht, hu, BitVec.eq_of_toNat_eq hback, hnone, hkeptByDecode.trans hkeptByEncode⟩

/-- Settles O35: FPMUL is the product checked against the word's bound. -/
theorem fpmulResult : Obligations.FpmulResult := fun rd _ _ s =>
  ⟨packFields_toNat .., fun h => finish_fits_completed 0x34#8 rd le_rfl h s, fun h => finish_fits_raised 0x34#8 rd h s⟩

end Sys2Proof.Machine
end

section
/-! PROOF. MULI under both rounding modes (45_fixedpoint.md R77): each mode's quotient is a signed number checked against the
mode's own lower bound and the upper bound they share. -/

namespace Sys2Proof.Machine

/-- A signed result checked against its range: OVERFLOW outside `low` to `2^255 - 1` (R77). -/
def signedFits (low z : Int) : Except ErrorCode Word :=
  if low ≤ z ∧ z ≤ 2 ^ 255 - 1 then .ok (toUnsigned z) else .error .overflow

theorem signedFits_ok {low z : Int} (h : low ≤ z ∧ z ≤ 2 ^ 255 - 1) : signedFits low z = .ok (toUnsigned z) :=
  if_pos h

theorem signedFits_error {low z : Int} (h : ¬(low ≤ z ∧ z ≤ 2 ^ 255 - 1)) : signedFits low z = .error .overflow :=
  if_neg h

/-- One state serves both ends: the instruction completes in the range and raises OVERFLOW outside it. -/
theorem finish_signedFits_ends (op : Byte) (rd : Reg) (low z : Int) (s : State) :
    ∃ t, finish op rd (signedFits low z) s = .next t ∧
      (low ≤ z ∧ z ≤ 2 ^ 255 - 1 → Completed op rd (z % 2 ^ 256).toNat s t) ∧
      (z < low ∨ 2 ^ 255 - 1 < z → Raised op .overflow s t) := by
  by_cases h : low ≤ z ∧ z ≤ 2 ^ 255 - 1
  · obtain ⟨t, ht, hcompleted⟩ := finish_ok_completed op rd (toUnsigned_toNat z) s
    rw [← signedFits_ok h] at ht
    exact ⟨t, ht, fun _ => hcompleted, fun hout => absurd h (by omega)⟩
  · obtain ⟨t, ht, hraised⟩ := finish_error_raised op rd (signedFits_error h) s
    exact ⟨t, ht, fun hin => absurd hin h, fun _ => hraised⟩

/-- FLOOR (R77): the quotient rounded down, in the signed range. -/
theorem muliValue_floor (r y : Word) :
    muliValue .floor r y = signedFits (-(2 ^ 255)) ((r.toNat : Int) * toSigned y / 2 ^ 112) := by
  rw [signedFits, ← ite_not]
  refine if_congr ?_ rfl rfl
  rw [floorSigned]
  push_cast
  omega

/-- A sign times a size is in the signed range without `-2^255` when the size is below `2^255`. -/
theorem sign_mul_in_range {y : Int} {m : Nat} (h : y = 0 → m = 0) :
    (-(2 ^ 255 - 1) ≤ y.sign * (m : Int) ∧ y.sign * (m : Int) ≤ 2 ^ 255 - 1) ↔ m < 2 ^ 255 := by
  rcases lt_trichotomy y 0 with hneg | hzero | hpos
  · rw [Int.sign_eq_neg_one_of_neg hneg]
    omega
  · rw [hzero, Int.sign_zero, h hzero]
    omega
  · rw [Int.sign_eq_one_of_pos hpos]
    omega

/-- TRUNC (R77): the size of the quotient rounded down, with the sign of the second operand, in the symmetric range. -/
theorem muliValue_trunc (r y : Word) :
    muliValue .trunc r y =
      signedFits (-(2 ^ 255 - 1)) ((toSigned y).sign * ((r.toNat * (toSigned y).natAbs / 2 ^ 112 : Nat) : Int)) := by
  have hzero : toSigned y = 0 → r.toNat * (toSigned y).natAbs / 2 ^ 112 = 0 := by
    intro h
    rw [h, Int.natAbs_zero, Nat.mul_zero, Nat.zero_div]
  rw [signedFits, ← ite_not]
  exact if_congr (by rw [sign_mul_in_range hzero, not_lt]) rfl rfl

/-- `to_signed` is the only number of the signed range congruent to the word (R8). -/
theorem toSigned_unique {u : Word} {y : Int} (hlow : -(2 ^ 255) ≤ y) (hhigh : y < 2 ^ 255) (hmod : y % 2 ^ 256 = u.toNat) :
    toSigned u = y := by
  obtain ⟨hlow', hhigh', hmod'⟩ := toSigned_spec u
  omega

theorem exec_muli (rd rs1 rs2 : Reg) (s : State) :
    exec (.muli rd rs1 rs2) s = finish 0x35#8 rd (muliValue s.params.muliMode (s.reg rs1) (s.reg rs2)) s := rfl

/-- Settles O36: the parameter picks the quotient and its range, and the check does the rest. -/
theorem muliResult : Obligations.MuliResult := by
  intro rd rs1 rs2 s y hlow hhigh hmod
  have hy := toSigned_unique hlow hhigh hmod
  subst hy
  rw [exec_muli]
  refine ⟨packFields_toNat .., ?_⟩
  cases hmode : s.params.muliMode with
  | floor =>
    rw [muliValue_floor]
    obtain ⟨t, ht, hcompleted, hraised⟩ := finish_signedFits_ends 0x35#8 rd (-(2 ^ 255)) _ s
    exact ⟨t, _, ht, fun _ => ⟨Int.ediv_mul_le _ (by decide), Int.lt_ediv_add_one_mul_self _ (by decide), hcompleted,
      hraised⟩, nofun⟩
  | trunc =>
    rw [muliValue_trunc]
    obtain ⟨t, ht, hcompleted, hraised⟩ := finish_signedFits_ends 0x35#8 rd (-(2 ^ 255 - 1)) _ s
    exact ⟨t, _, ht, nofun, fun _ => ⟨rfl, hcompleted, hraised⟩⟩

end Sys2Proof.Machine
end

section
/-! PROOF. MULUQ (45_fixedpoint.md R78): the four-term expansion is the product divided by the scale, and the upper test rejects
nothing that the test of the sum would let through. -/

namespace Sys2Proof

theorem ResultLimit.bound_pos (l : ResultLimit) : 0 < l.bound := by
  cases l <;> exact Nat.two_pow_pos _

theorem ResultLimit.bound_le (l : ResultLimit) : l.bound ≤ 2 ^ 256 := by
  cases l
  · exact le_rfl
  · exact Nat.pow_le_pow_right (by decide) (by decide)

end Sys2Proof

namespace Sys2Proof.Machine

/-- The product of two numbers split at `b`, divided by `b`: the upper term, the two cross terms and the lower one. -/
theorem mul_div_eq_four_terms (x y : Nat) {b : Nat} (hb : 0 < b) :
    x * y / b = x / b * (y / b) * b + x / b * (y % b) + y / b * (x % b) + x % b * (y % b) / b := by
  have hexpand : x * y = x % b * (y % b) + b * (x / b * (y / b) * b + x / b * (y % b) + y / b * (x % b)) := by
    calc x * y = (x % b + b * (x / b)) * (y % b + b * (y / b)) := by rw [Nat.mod_add_div, Nat.mod_add_div]
      _ = _ := by ring
  rw [hexpand, Nat.add_mul_div_left _ _ hb, Nat.add_comm]

/-- MULUQ is the quotient checked against its limit: when the upper term alone does not fit, neither does the sum (R78). -/
theorem muluqValue_eq_fits (limit : ResultLimit) (r1 r2 : Word) :
    muluqValue limit r1 r2 = fits limit.bound (r1.toNat * r2.toNat / 2 ^ 112) := by
  have hsum := mul_div_eq_four_terms r1.toNat r2.toNat (Nat.two_pow_pos 112)
  by_cases hupper : rawHigh r1 * rawHigh r2 * scale < 2 ^ 256
  · rw [hsum]
    exact if_pos hupper
  · have hover : limit.bound ≤ r1.toNat * r2.toNat / 2 ^ 112 := by
      have hterm : rawHigh r1 * rawHigh r2 * scale ≤ r1.toNat * r2.toNat / 2 ^ 112 := by
        rw [hsum, Nat.add_assoc, Nat.add_assoc]
        exact Nat.le_add_right ..
      exact limit.bound_le.trans ((Nat.not_lt.1 hupper).trans hterm)
    rw [fits_error hover]
    exact if_neg hupper

theorem exec_muluq (rd rs1 rs2 : Reg) (s : State) :
    exec (.muluq rd rs1 rs2) s =
      finish 0x36#8 rd (fits s.params.muluqLimit.bound ((s.reg rs1).toNat * (s.reg rs2).toNat / 2 ^ 112)) s := by
  rw [exec, execMuluq, muluqValue_eq_fits]

/-- Settles O37: the quotient is checked against the limit. -/
theorem muluqResult : Obligations.MuluqResult := by
  intro rd rs1 rs2 s
  rw [exec_muluq]
  exact ⟨packFields_toNat .., fun h => finish_fits_completed 0x36#8 rd (ResultLimit.bound_le _) h s,
    fun h => finish_fits_raised 0x36#8 rd h s⟩

end Sys2Proof.Machine
end

section
/-! PROOF. DIVUQ with its informative datapath, FRACTION and RECIP (45_fixedpoint.md R79 to R82). A zero divisor is tested
first; after it the short-circuit of DIVUQ and that of FRACTION give what the quotient, checked against its bound, would give. -/

namespace Sys2Proof.Machine

/-! ### The values -/

theorem divuqValue_of_zero (r1 : Word) {r2 : Word} (h : r2.toNat = 0) : divuqValue r1 r2 = .error .divisionByZero :=
  if_pos h

/-- Equal operands have the scale as quotient, so the short-circuit changes no result (R79). -/
theorem divuqValue_of_ne_zero (r1 : Word) {r2 : Word} (h : r2.toNat ≠ 0) :
    divuqValue r1 r2 = fits (2 ^ 224) (r1.toNat * 2 ^ 112 / r2.toNat) := by
  rw [divuqValue, if_neg h]
  by_cases heq : r1.toNat = r2.toNat
  · have hscale : r2.toNat * 2 ^ 112 / r2.toNat = 2 ^ 112 := Nat.mul_div_cancel_left _ (Nat.pos_of_ne_zero h)
    rw [if_pos heq, heq, hscale, fits_ok (by decide)]
  · exact if_neg heq

theorem fractionValue_of_zero (limit : ResultLimit) (n : Word) {d : Word} (h : d.toNat = 0) :
    fractionValue limit n d = .error .divisionByZero :=
  if_pos h

/-- A zero dividend has the quotient 0, so the short-circuit changes no result (R81). -/
theorem fractionValue_of_ne_zero (limit : ResultLimit) (n : Word) {d : Word} (h : d.toNat ≠ 0) :
    fractionValue limit n d = fits limit.bound (n.toNat * 2 ^ 112 / d.toNat) := by
  rw [fractionValue, if_neg h]
  by_cases hzero : n.toNat = 0
  · rw [if_pos hzero, hzero, Nat.zero_mul, Nat.zero_div, fits_ok limit.bound_pos]
  · exact if_neg hzero

theorem recipValue_of_zero {r : Word} (h : r.toNat = 0) : recipValue r = .error .divisionByZero :=
  if_pos h

theorem recipValue_of_one {r : Word} (h : r.toNat = 1) : recipValue r = .error .overflow := by
  rw [recipValue, if_neg (by omega), if_pos h]

theorem recipValue_of_two_le {r : Word} (h : 2 ≤ r.toNat) :
    recipValue r = .ok (BitVec.ofNat 256 (2 ^ 224 / r.toNat)) := by
  rw [recipValue, if_neg (by omega), if_neg (by omega)]

/-- A reciprocal is at most `2^223` from 2 on (R82). -/
theorem recip_le {r : Nat} (h : 2 ≤ r) : 2 ^ 224 / r ≤ 2 ^ 223 :=
  Nat.div_le_of_le_mul (by omega)

/-! ### DIVUQ's long division (R80) -/

/-- The bits of the long division add the quotient of the scaled remainder: each round doubles the remainder and takes the
divisor off it at most once. -/
theorem divuqBits_eq_add_div (n : Nat) {r2 : Nat} (hr2 : 0 < r2) (rem q : Nat) (hrem : rem < r2) :
    divuqBits n r2 rem q = q + rem * 2 ^ n / r2 := by
  induction n generalizing rem q with
  | zero => rw [divuqBits, pow_zero, Nat.mul_one, Nat.div_eq_of_lt hrem, Nat.add_zero]
  | succ n ih =>
    rw [divuqBits]
    split_ifs with hdone hbit
    · rw [hdone, Nat.zero_mul, Nat.zero_div, Nat.add_zero]
    · have hdouble : rem * 2 ^ (n + 1) = (2 * rem - r2) * 2 ^ n + r2 * 2 ^ n := by
        rw [← Nat.add_mul, Nat.sub_add_cancel hbit, pow_succ']
        ring
      rw [ih _ _ (by omega), hdouble, Nat.add_mul_div_left _ _ hr2]
      ring
    · rw [ih _ _ (by omega), pow_succ', Nat.mul_left_comm, Nat.mul_assoc]

/-- The integer part and the fraction bits are the quotient of the scaled dividend (R80). -/
theorem divuqBits_eq_div (r1 : Nat) {r2 : Nat} (hr2 : 0 < r2) :
    divuqBits 112 r2 (r1 % r2) (r1 / r2 * 2 ^ 112) = r1 * 2 ^ 112 / r2 := by
  have hsplit : r1 * 2 ^ 112 = r1 % r2 * 2 ^ 112 + r2 * (r1 / r2 * 2 ^ 112) := by
    rw [← Nat.mul_assoc, ← Nat.add_mul, Nat.mod_add_div]
  rw [divuqBits_eq_add_div 112 hr2 _ _ (Nat.mod_lt _ hr2), hsplit, Nat.add_mul_div_left _ _ hr2, Nat.add_comm]

/-- The integer part reaches `2^112` exactly when the scaled quotient reaches `2^224` (R80). -/
theorem two_pow_le_scaled_div_iff (r1 : Nat) {r2 : Nat} (hr2 : 0 < r2) :
    2 ^ 224 ≤ r1 * 2 ^ 112 / r2 ↔ 2 ^ 112 ≤ r1 / r2 := by
  rw [Nat.le_div_iff_mul_le hr2, Nat.le_div_iff_mul_le hr2]
  omega

/-- Both branches of the datapath are the scaled quotient with the same test (R80). -/
theorem divuqDatapath_eq (r1 : Nat) {r2 : Nat} (hr2 : 0 < r2) :
    divuqDatapath r1 r2 =
      if 2 ^ 224 ≤ r1 * 2 ^ 112 / r2 then .error .overflow else .ok (r1 * 2 ^ 112 / r2) := by
  by_cases hshort : r1 < 2 ^ 144
  · exact if_pos hshort
  · rw [divuqDatapath, if_neg hshort, divuqBits_eq_div r1 hr2]
    exact if_congr (two_pow_le_scaled_div_iff r1 hr2).symm rfl rfl

/-! ### The statements -/

/-- Settles O60: the test is on the scaled quotient in both branches. -/
theorem divuqDatapathComputesFloor : Obligations.DivuqDatapathComputesFloor := by
  intro r1 r2 _ hr2 _
  rw [divuqDatapath_eq r1 hr2]
  exact ⟨fun h => if_neg h.not_ge, fun h => if_pos h⟩

/-- Settles O38: the quotient of equal operands is the scale, and any quotient is checked against `2^224`. -/
theorem divuqResult : Obligations.DivuqResult := by
  intro rd rs1 rs2 s
  refine ⟨packFields_toNat .., fun hzero => ?zero, fun hne heq => ?equal, fun hne hlt => ?quotient, fun hne hge => ?overflow⟩
  case zero => exact finish_error_raised 0x37#8 rd (divuqValue_of_zero _ hzero) s
  all_goals rw [exec, execDivuq, divuqValue_of_ne_zero _ hne]
  case equal =>
    have hscale : (s.reg rs1).toNat * 2 ^ 112 / (s.reg rs2).toNat = 2 ^ 112 := by
      rw [heq, Nat.mul_div_cancel_left _ (Nat.pos_of_ne_zero hne)]
    rw [hscale]
    exact finish_fits_completed 0x37#8 rd (by decide) (by decide) s
  case quotient => exact finish_fits_completed 0x37#8 rd (by decide) hlt s
  case overflow => exact finish_fits_raised 0x37#8 rd hge s

/-- Settles O39: the quotient of a zero dividend is 0, and any quotient is checked against the limit. -/
theorem fractionResult : Obligations.FractionResult := by
  intro rd rs1 rs2 s
  refine ⟨packFields_toNat .., fun hzero => ?zero, fun hne hn => ?zeroDividend, fun hne hlt => ?quotient,
    fun hne hge => ?overflow⟩
  case zero => exact finish_error_raised 0x38#8 rd (fractionValue_of_zero _ _ hzero) s
  all_goals rw [exec, execFraction, fractionValue_of_ne_zero _ _ hne]
  case zeroDividend =>
    rw [hn, Nat.zero_mul, Nat.zero_div]
    exact finish_fits_completed 0x38#8 rd (ResultLimit.bound_le _) (ResultLimit.bound_pos _) s
  case quotient => exact finish_fits_completed 0x38#8 rd (ResultLimit.bound_le _) hlt s
  case overflow => exact finish_fits_raised 0x38#8 rd hge s

/-- Settles O40: 0 and 1 have their errors, and any other reciprocal is at most `2^223`. -/
theorem recipResult : Obligations.RecipResult := fun rd _ s =>
  ⟨packFields_toNat .., fun h => finish_error_raised 0x39#8 rd (recipValue_of_zero h) s,
    fun h => finish_error_raised 0x39#8 rd (recipValue_of_one h) s,
    fun h => finish_ofNat_completed 0x39#8 rd (recipValue_of_two_le h) ((recip_le h).trans_lt (by decide)) s⟩

end Sys2Proof.Machine
end

section
/-! PROOF. FPSQRT (45_fixedpoint.md R83): exact below `2^144`. From there on the default FPSQRT_LARGE takes the root of the raw
shifted up by less than the scale and shifts that root: at most the exact root, and less than one unit of the shift below it. -/

namespace Sys2Proof.Machine

/-! ### The shift of a large raw -/

/-- How far the default FPSQRT_LARGE shifts the raw up: its leading zeros, rounded down to an even number (R83). -/
def rootShift (r : Nat) : Nat :=
  255 - msbIndex r - (255 - msbIndex r) % 2

/-- How far it shifts the root up: what is left of the scale, halved (R83). -/
def rootScale (r : Nat) : Nat :=
  (112 - rootShift r) / 2

theorem fpsqrtLargeGk_eq (r : Nat) : fpsqrtLargeGk r = isqrt (r * 2 ^ rootShift r) * 2 ^ rootScale r := rfl

/-- The most significant bit of a raw of `2^144` or more is bit 144 or a higher one. -/
theorem le_msbIndex {r : Nat} (hlarge : 2 ^ 144 ≤ r) (hword : r < 2 ^ 256) : 144 ≤ msbIndex r := by
  obtain ⟨-, hlt⟩ := msbIndex_spec r (by omega) hword
  exact Nat.le_of_lt_succ ((Nat.pow_lt_pow_iff_right (by decide)).1 (hlarge.trans_lt hlt))

/-- The two shifts make up the scale, the one of the root being between 1 and 56 (R83). -/
theorem rootShift_rootScale {r : Nat} (hlarge : 2 ^ 144 ≤ r) (hword : r < 2 ^ 256) :
    rootShift r + (rootScale r + rootScale r) = 112 ∧ 1 ≤ rootScale r ∧ rootScale r ≤ 56 := by
  have hindex := le_msbIndex hlarge hword
  unfold rootScale rootShift
  omega

/-- The shifted raw is still a word. -/
theorem mul_rootShift_lt {r : Nat} (hpos : 0 < r) (hword : r < 2 ^ 256) : r * 2 ^ rootShift r < 2 ^ 256 := by
  obtain ⟨-, hlt⟩ := msbIndex_spec r hpos hword
  have hindex := msbIndex_le r
  calc r * 2 ^ rootShift r < 2 ^ (msbIndex r + 1) * 2 ^ rootShift r := Nat.mul_lt_mul_of_pos_right hlt (Nat.two_pow_pos _)
    _ = 2 ^ (msbIndex r + 1 + rootShift r) := (pow_add ..).symm
    _ ≤ 2 ^ 256 := Nat.pow_le_pow_right (by decide) (by unfold rootShift; omega)

/-- The scaled raw is the shifted one times the square of the root's own scale. -/
theorem mul_scale_eq {r : Nat} (hlarge : 2 ^ 144 ≤ r) (hword : r < 2 ^ 256) :
    r * 2 ^ 112 = r * 2 ^ rootShift r * (2 ^ rootScale r * 2 ^ rootScale r) := by
  obtain ⟨hsum, -, -⟩ := rootShift_rootScale hlarge hword
  rw [Nat.mul_assoc, ← pow_add, ← pow_add, hsum]

/-! ### The roots -/

/-- A word scaled by `S` has a root by R11. -/
theorem isqrt_scaled_spec {r : Nat} (hword : r < 2 ^ 256) :
    isqrt (r * 2 ^ 112) * isqrt (r * 2 ^ 112) ≤ r * 2 ^ 112 ∧
      r * 2 ^ 112 < (isqrt (r * 2 ^ 112) + 1) * (isqrt (r * 2 ^ 112) + 1) := by
  have hlong : r * 2 ^ 112 < 2 ^ 512 := by
    calc r * 2 ^ 112 < 2 ^ 256 * 2 ^ 112 := Nat.mul_lt_mul_of_pos_right hword (Nat.two_pow_pos _)
      _ < 2 ^ 512 := by
        rw [← pow_add]
        gcongr <;> decide
  exact isqrt_spec _ hlong

/-- The shifted raw has a root by R11. -/
theorem isqrt_shifted_spec {r : Nat} (hpos : 0 < r) (hword : r < 2 ^ 256) :
    isqrt (r * 2 ^ rootShift r) * isqrt (r * 2 ^ rootShift r) ≤ r * 2 ^ rootShift r ∧
      r * 2 ^ rootShift r < (isqrt (r * 2 ^ rootShift r) + 1) * (isqrt (r * 2 ^ rootShift r) + 1) :=
  isqrt_spec _ ((mul_rootShift_lt hpos hword).trans (by gcongr <;> decide))

/-- A root times `c` is at most the root of the number times `c * c`, and less than `c` below it. -/
theorem scaled_root_bounds {v w m k c : Nat} (hw : w = v * (c * c)) (hc : 0 < c)
    (hm : m * m ≤ v ∧ v < (m + 1) * (m + 1)) (hk : k * k ≤ w ∧ w < (k + 1) * (k + 1)) : m * c ≤ k ∧ k < m * c + c := by
  subst hw
  obtain ⟨hmle, hmlt⟩ := hm
  obtain ⟨hkle, hklt⟩ := hk
  constructor
  · refine Nat.le_of_lt_succ (Nat.mul_self_lt_mul_self_iff.1 (lt_of_le_of_lt ?_ hklt))
    rw [Nat.mul_mul_mul_comm]
    exact Nat.mul_le_mul_right _ hmle
  · rw [← Nat.succ_mul]
    refine Nat.mul_self_lt_mul_self_iff.1 (lt_of_le_of_lt hkle ?_)
    rw [Nat.mul_mul_mul_comm]
    exact Nat.mul_lt_mul_of_pos_right hmlt (Nat.mul_pos hc hc)

/-! ### The values -/

/-- The root of a scaled raw below `2^144` is below `2^128` (R83). -/
theorem isqrt_scaled_lt {r : Nat} (hsmall : r < 2 ^ 144) : isqrt (r * 2 ^ 112) < 2 ^ 128 := by
  obtain ⟨hle, -⟩ := isqrt_scaled_spec (r := r) (by omega)
  exact root_lt hle (by omega)

/-- The default FPSQRT_LARGE is below `2^184` (R83, R85). -/
theorem fpsqrtLargeGk_lt {r : Nat} (hlarge : 2 ^ 144 ≤ r) (hword : r < 2 ^ 256) : fpsqrtLargeGk r < 2 ^ 184 := by
  have hpos : 0 < r := by omega
  obtain ⟨hle, -⟩ := isqrt_shifted_spec hpos hword
  have hroot : isqrt (r * 2 ^ rootShift r) < 2 ^ 128 := root_lt hle (mul_rootShift_lt hpos hword)
  obtain ⟨-, -, hscale⟩ := rootShift_rootScale hlarge hword
  rw [fpsqrtLargeGk_eq]
  calc isqrt (r * 2 ^ rootShift r) * 2 ^ rootScale r < 2 ^ 128 * 2 ^ rootScale r :=
        Nat.mul_lt_mul_of_pos_right hroot (Nat.two_pow_pos _)
    _ ≤ 2 ^ 128 * 2 ^ 56 := Nat.mul_le_mul_left _ (Nat.pow_le_pow_right (by decide) hscale)
    _ = 2 ^ 184 := (pow_add ..).symm

theorem fpsqrtValue_small (p : FpsqrtLarge) {r : Word} (h : r.toNat < 2 ^ 144) :
    fpsqrtValue p r = BitVec.ofNat 256 (isqrt (r.toNat * 2 ^ 112)) :=
  if_pos h

theorem fpsqrtValue_large {r : Word} (h : 2 ^ 144 ≤ r.toNat) :
    fpsqrtValue .generalKnowledge r = BitVec.ofNat 256 (fpsqrtLargeGk r.toNat) :=
  if_neg (Nat.not_lt.2 h)

theorem exec_fpsqrt (rd rs1 : Reg) (s : State) :
    exec (.fpsqrt rd rs1) s = finish 0x3A#8 rd (.ok (fpsqrtValue s.params.fpsqrtLarge (s.reg rs1))) s := rfl

/-- FPSQRT of a raw of `2^144` or more with the default FPSQRT_LARGE completes with that function's value. -/
theorem exec_fpsqrt_large {rs1 : Reg} {s : State} (hlarge : 2 ^ 144 ≤ (s.reg rs1).toNat)
    (hparam : s.params.fpsqrtLarge = .generalKnowledge) (rd : Reg) :
    ∃ t, exec (.fpsqrt rd rs1) s = .next t ∧ Completed 0x3A#8 rd (fpsqrtLargeGk (s.reg rs1).toNat) s t := by
  rw [exec_fpsqrt, hparam, fpsqrtValue_large hlarge]
  exact finish_ofNat_completed 0x3A#8 rd rfl ((fpsqrtLargeGk_lt hlarge (s.reg rs1).isLt).trans (by decide)) s

/-! ### The statements -/

/-- Settles O41: the value on each side of `2^144` is a root by R11, scaled back from there on. -/
theorem fpsqrtResult : Obligations.FpsqrtResult := by
  intro rd rs1 s
  have hword := (s.reg rs1).isLt
  refine ⟨packFields_toNat .., fun hsmall => ?small, fun hlarge hparam => ?large, fun _ _ => ?leftOpen⟩
  case small =>
    obtain ⟨t, ht, hcompleted⟩ := finish_ofNat_completed 0x3A#8 rd (congrArg Except.ok (fpsqrtValue_small _ hsmall))
      ((isqrt_scaled_lt hsmall).trans (by decide)) s
    exact ⟨t, _, ht, hcompleted, isqrt_scaled_spec hword⟩
  case large =>
    have hpos : 0 < (s.reg rs1).toNat := by omega
    obtain ⟨t, ht, hcompleted⟩ := exec_fpsqrt_large hlarge hparam rd
    obtain ⟨hmsble, hmsblt⟩ := msbIndex_spec _ hpos hword
    exact ⟨t, _, _, _, ht, hcompleted, hmsble, hmsblt, rfl, isqrt_shifted_spec hpos hword⟩
  case leftOpen =>
    obtain ⟨t, ht, hcompleted⟩ := finish_ok_completed 0x3A#8 rd rfl s
    exact ⟨t, _, ht, hcompleted⟩

/-- Settles O42: the exact root is that of the shifted raw times the square of the root's scale. -/
theorem fpsqrtPrecisionCeiling : Obligations.FpsqrtPrecisionCeiling := by
  intro rd rs1 s hlarge hparam
  have hword := (s.reg rs1).isLt
  have hpos : 0 < (s.reg rs1).toNat := by omega
  obtain ⟨t, ht, hcompleted⟩ := exec_fpsqrt_large hlarge hparam rd
  obtain ⟨hnone, -, -⟩ := hcompleted.status
  obtain ⟨hmsble, hmsblt⟩ := msbIndex_spec _ hpos hword
  obtain ⟨-, hscalepos, hscalele⟩ := rootShift_rootScale hlarge hword
  have hexact := isqrt_scaled_spec hword
  obtain ⟨hle, hlt⟩ :=
    scaled_root_bounds (mul_scale_eq hlarge hword) (Nat.two_pow_pos _) (isqrt_shifted_spec hpos hword) hexact
  refine ⟨t, _, _, ht, hnone, hmsble, hmsblt, rfl, hscalepos, hscalele, ?_⟩
  rw [hcompleted.result, fpsqrtLargeGk_eq]
  exact ⟨Nat.dvd_mul_left .., _, hexact.1, hexact.2, hle, hlt⟩

end Sys2Proof.Machine
end

section
/-! PROOF. The result bounds of the FixedPoint instructions (45_fixedpoint.md R85): an instruction ends with no error in STATUS
only when its value is a word, and each word is below the instruction's bound. -/

namespace Sys2Proof.Machine

/-- The value is a word below `bound`, or an error that STATUS shows (R87). -/
def ValueBelow (bound : Nat) : Except ErrorCode Word → Prop
  | .ok w => w.toNat < bound
  | .error e => e ≠ .noError

/-- An instruction that ends with no error has written a word below its value's bound. -/
theorem reg_lt_of_finish {op : Byte} {rd : Reg} {bound : Nat} {value : Except ErrorCode Word} {s t : State}
    (hvalue : ValueBelow bound value) (hnone : t.status.err = .noError) (h : finish op rd value s = .next t) :
    (t.reg rd).toNat < bound := by
  cases value with
  | ok w =>
    cases h
    rw [State.reg_complete, State.reg_setReg_same]
    exact hvalue
  | error e =>
    cases h
    exact absurd hnone hvalue

/-- A number below the bound is a word below it. -/
theorem valueBelow_ofNat {bound v : Nat} (h : v < bound) : ValueBelow bound (.ok (BitVec.ofNat 256 v)) :=
  ((BitVec.toNat_ofNat ..).trans_le (Nat.mod_le ..)).trans_lt h

theorem valueBelow_fits (bound v : Nat) : ValueBelow bound (fits bound v) := by
  rcases fits_cases bound v with ⟨hlt, hfits⟩ | ⟨-, hfits⟩
  · rw [hfits]
    exact valueBelow_ofNat hlt
  · rw [hfits]
    exact nofun

theorem valueBelow_encodeValue (v : Word) : ValueBelow (2 ^ 224) (encodeValue v) := by
  rcases Nat.lt_or_ge v.toNat (2 ^ 112) with hlt | hge
  · rw [encodeValue_ok hlt]
    exact valueBelow_ofNat (by omega)
  · rw [encodeValue_error hge]
    exact nofun

theorem valueBelow_decodeValue (r : Word) : ValueBelow (2 ^ 112) (decodeValue r) := by
  rcases Nat.lt_or_ge r.toNat (2 ^ 224) with hlt | hge
  · rw [decodeValue_ok hlt]
    exact valueBelow_ofNat (by omega)
  · rw [decodeValue_error hge]
    exact nofun

theorem valueBelow_decode144 (r : Word) : ValueBelow (2 ^ 144) (.ok (BitVec.ofNat 256 (r.toNat / scale))) :=
  valueBelow_ofNat (Nat.div_lt_of_lt_mul (r.isLt.trans_eq (pow_add 2 112 144)))

theorem valueBelow_divuqValue (r1 r2 : Word) : ValueBelow (2 ^ 224) (divuqValue r1 r2) := by
  by_cases hzero : r2.toNat = 0
  · rw [divuqValue_of_zero r1 hzero]
    exact nofun
  · rw [divuqValue_of_ne_zero r1 hzero]
    exact valueBelow_fits ..

theorem valueBelow_fractionValue (limit : ResultLimit) (n d : Word) :
    ValueBelow limit.bound (fractionValue limit n d) := by
  by_cases hzero : d.toNat = 0
  · rw [fractionValue_of_zero limit n hzero]
    exact nofun
  · rw [fractionValue_of_ne_zero limit n hzero]
    exact valueBelow_fits ..

theorem valueBelow_recipValue (r : Word) : ValueBelow (2 ^ 223 + 1) (recipValue r) := by
  obtain hzero | hone | htwo : r.toNat = 0 ∨ r.toNat = 1 ∨ 2 ≤ r.toNat := by omega
  · rw [recipValue_of_zero hzero]
    exact nofun
  · rw [recipValue_of_one hone]
    exact nofun
  · rw [recipValue_of_two_le htwo]
    exact valueBelow_ofNat (Nat.lt_succ_of_le (recip_le htwo))

theorem valueBelow_fpsqrtValue (r : Word) : ValueBelow (2 ^ 184) (.ok (fpsqrtValue .generalKnowledge r)) := by
  rcases Nat.lt_or_ge r.toNat (2 ^ 144) with hsmall | hlarge
  · rw [fpsqrtValue_small _ hsmall]
    exact valueBelow_ofNat ((isqrt_scaled_lt hsmall).trans (by decide))
  · rw [fpsqrtValue_large hlarge]
    exact valueBelow_ofNat (fpsqrtLargeGk_lt hlarge r.isLt)

/-- Settles O43: each instruction's value is below its bound or an error. -/
theorem fixedPointResultBounds : Obligations.FixedPointResultBounds := by
  intro rd rs1 rs2 s t hnone
  refine ⟨reg_lt_of_finish (valueBelow_encodeValue _) hnone, reg_lt_of_finish (valueBelow_decodeValue _) hnone,
    reg_lt_of_finish (valueBelow_decode144 _) hnone, fun hmuluq => ?muluq,
    reg_lt_of_finish (valueBelow_divuqValue ..) hnone, reg_lt_of_finish (valueBelow_fractionValue ..) hnone,
    fun hrecip => Nat.le_of_lt_succ (reg_lt_of_finish (valueBelow_recipValue _) hnone hrecip), fun hfpsqrt hparam => ?fpsqrt⟩
  case muluq =>
    rw [exec_muluq] at hmuluq
    exact reg_lt_of_finish (valueBelow_fits ..) hnone hmuluq
  case fpsqrt =>
    rw [exec_fpsqrt, hparam] at hfpsqrt
    exact reg_lt_of_finish (valueBelow_fpsqrtValue _) hnone hfpsqrt

end Sys2Proof.Machine
end

section
/-! PROOF. What changes the unit (60_exceptions.md R90, R91, R101): an instruction changes STATUS alone when it ends with an
error, and its destinations and STATUS when it ends without one; of the port's operations the reads change nothing. -/

namespace Sys2Proof.Machine

/-! ### The two ends of an instruction (R90, R91) -/

/-- Everything an instruction that answers a next state can have done: its writes, which are of the destinations, and STATUS
completed, or an error raised. -/
theorem exec_next {i : Instr} {s t : State} (h : exec i s = .next t) :
    (∃ ws : List (Reg × Word), ws.map Prod.fst = dests i ∧
        t = (ws.foldl (fun u w => u.setReg w.1 w.2) s).complete i.opcode) ∨
      ∃ e, e ≠ .noError ∧ t = s.raise e i.opcode := by
  rw [exec_eq_outcome] at h
  cases h
  cases ho : outcome i s.params s.reg with
  | ok ws => exact .inl ⟨ws, outcome_dests ho, rfl⟩
  | error e => exact .inr ⟨e, outcome_error_ne_noError ho, rfl⟩

/-- Writes leave every register that is not among them. -/
theorem sameRegsBut_writes (ws : List (Reg × Word)) (s : State) :
    SameRegsBut (ws.map Prod.fst) s (ws.foldl (fun u w => u.setReg w.1 w.2) s) :=
  fun r hr => writes_reg_other ws s r hr

/-- Completing STATUS after writes leaves STICKY as it was before them (R91). -/
theorem statusCompleted_writes (op : Byte) (ws : List (Reg × Word)) (s : State) :
    StatusCompleted op s ((ws.foldl (fun u w => u.setReg w.1 w.2) s).complete op) :=
  ⟨rfl, rfl, by simp [(writes_port ws s).2]⟩

/-- An instruction leaves the port and the parameters, however it ends. -/
theorem exec_samePort {i : Instr} {s t : State} (h : exec i s = .next t) : SamePort s t := by
  rw [exec_eq_outcome] at h
  cases h
  exact applyOutcome_port ..

/-- Settles O46: of the two ends of an instruction, raising an error is the one that leaves an error in STATUS. -/
theorem errorChangesOnlyStatus : Obligations.ErrorChangesOnlyStatus := by
  intro i s t h herr
  rcases exec_next h with ⟨ws, -, rfl⟩ | ⟨e, -, rfl⟩
  · exact absurd rfl herr
  · rfl

/-- Settles O47: of the two ends of an instruction, writing the destinations is the one that leaves no error in STATUS. -/
theorem successWritesDestinationsOnly : Obligations.SuccessWritesDestinationsOnly := by
  intro i s t h herr
  have hport := exec_samePort h
  rcases exec_next h with ⟨ws, hdests, rfl⟩ | ⟨e, hne, rfl⟩
  · rw [← hdests]
    exact ⟨fun r hr => (State.isWritten_eq_true_iff _ r).2 (writes_parts_mem ws s r hr), sameRegsBut_writes ws s,
      statusCompleted_writes i.opcode ws s, hport⟩
  · exact absurd herr hne

/-! ### What changes registers and STATUS (R101) -/

/-- An operation leaves the registers and STATUS, or it is an ISSUE, a host write or RESET. -/
theorem serve_keeps_unit_or_writes {op : HostOp} {s t : State} (h : serve op s = .next t) :
    (t.regs = s.regs ∧ t.written = s.written ∧ t.status = s.status) ∨
      ((∃ w, op = .issue w) ∨ (∃ r v, op = .writeReg r v) ∨ (∃ r k v, op = .writeLimb r k v) ∨
        (∃ v, op = .writeStatus v) ∨ op = .reset) := by
  cases op with
  | readReg r => cases h; exact .inl ⟨rfl, rfl, rfl⟩
  | readLimb r k => obtain ⟨-, rfl⟩ := serve_readLimb_next h; exact .inl ⟨rfl, rfl, rfl⟩
  | readStatus => cases h; exact .inl ⟨rfl, rfl, rfl⟩
  | issue w => exact .inr (.inl ⟨w, rfl⟩)
  | writeReg r v => exact .inr (.inr (.inl ⟨r, v, rfl⟩))
  | writeLimb r k v => exact .inr (.inr (.inr (.inl ⟨r, k, v, rfl⟩)))
  | writeStatus v => exact .inr (.inr (.inr (.inr (.inl ⟨v, rfl⟩))))
  | reset => exact .inr (.inr (.inr (.inr (.inr rfl))))

/-- With no operation waiting a step changes nothing (R101). -/
theorem step_of_inbox_nil {s : State} (h : s.inbox = []) : step s = .next s := by
  simp only [step, h]

/-- Settles O8: an idle step changes nothing, and neither does an operation that only reads. -/
theorem onlyWritesIssuesAndResetChangeTheUnit : Obligations.OnlyWritesIssuesAndResetChangeTheUnit := by
  refine ⟨fun s => step_of_inbox_nil, fun s t h hchanged => ?_⟩
  rcases step_next h with ⟨-, rfl⟩ | ⟨q, rest, hi, hserve⟩
  · simp at hchanged
  · rcases serve_keeps_unit_or_writes hserve with ⟨hregs, hwritten, hstatus⟩ | hwrites
    · simp [hregs, hwritten, hstatus] at hchanged
    · exact ⟨q, rest, hi, hwrites⟩

end Sys2Proof.Machine
end

section
/-! PROOF. Power-on and RESET (70_reset_and_hazards.md R104): STATUS reads 0 and no part of any register is written. -/

namespace Sys2Proof.Machine

/-- STATUS reads 0 at power-on: no error, STICKY clear, LASTOP 0 (R18, R104). -/
theorem State.status_word_reset : State.reset.status.word = 0#32 := rfl

/-- Of no register is any part written at power-on (R104). -/
theorem State.reset_unwritten (r : Reg) : State.reset.isWritten r = false ∧ State.reset.parts r = 0#8 :=
  ⟨State.isWritten_reset r, State.parts_reset r⟩

/-- `RESET()` leaves the port, the issue index and the parameters (log entry 6). -/
theorem State.samePort_hardReset (s : State) : SamePort s s.hardReset where
  position := s.position_hardReset
  host := s.host_hardReset
  inbox := s.inbox_hardReset
  reply := s.reply_hardReset
  params := s.params_hardReset

/-- Settles O12: RESET is `State.hardReset`, which gives STATUS and the registers their power-on state and leaves the rest. -/
theorem resetClearsStatusAndUnwritesRegisters : Obligations.ResetClearsStatusAndUnwritesRegisters := by
  refine ⟨⟨State.status_word_reset, State.reset_unwritten⟩, fun s u hacc => ⟨u.hardReset, ?step, ?status, ?regs, ?port⟩⟩
  case step => rw [step_of_accepts hacc, serve_reset]
  case status => rw [State.status_hardReset, State.status_word_reset]
  case regs => exact fun r => ⟨u.isWritten_hardReset r, u.parts_hardReset r⟩
  case port => exact u.samePort_hardReset

end Sys2Proof.Machine
end
